-- ==== Sys2Proof/Word.lean ====
section
/-! DEFINITION. The two word types of the machine: a byte of memory (R8, R50) and the 64-bit pattern that
registers, the program counter and call-stack entries hold (R9, R21, R26, R34). -/

namespace Sys2Proof

/-- `u8` of R9: a memory cell, an opcode byte, an operand byte. -/
abbrev Byte := BitVec 8

/-- A 64-bit pattern of R9: read unsigned as `toNat` and signed as `toInt`. -/
abbrev Word := BitVec 64

end Sys2Proof
end

