-- ==== Sys2Proof/Syntax.lean ====
section
/-! DEFINITION. The instruction set: one constructor per row of spec/opcode_table.json (R90). -/

namespace Sys2Proof

/-- An instruction with its operands in encoding order (R82, R83). A register operand is the whole operand byte:
bytes 16 to 255 are encodable and raise `RegisterFault` when executed (R24, R86). Immediates are the
little-endian value of their bytes (R87, R88). -/
inductive Instr where
  | nop
  | load1b (reg : Byte) (imm : BitVec 8)
  | load2b (reg : Byte) (imm : BitVec 16)
  | load3b (reg : Byte) (imm : BitVec 24)
  | load4b (reg : Byte) (imm : BitVec 32)
  | load5b (reg : Byte) (imm : BitVec 40)
  | load6b (reg : Byte) (imm : BitVec 48)
  | load7b (reg : Byte) (imm : BitVec 56)
  | load8b (reg : Byte) (imm : BitVec 64)
  | add (src1 src2 dst : Byte)
  | sub (src1 src2 dst : Byte)
  | mul (src1 src2 dst : Byte)
  | div (src1 src2 dst : Byte)
  | not (reg : Byte)
  | and (dst right : Byte)
  | or (dst right : Byte)
  | xor (dst right : Byte)
  | call (address : Word)
  | ret
  | endProgram
  | cpuid
  | int (intno : Byte)
  /-- Any opcode byte no other row matches (R91, R122). -/
  | badop (op : Byte)
deriving DecidableEq, Repr

/-- The register operand bytes of an instruction, in encoding order (R81, R83). -/
def Instr.regOperands : Instr → List Byte
  | .nop => []
  | .load1b r _ => [r]
  | .load2b r _ => [r]
  | .load3b r _ => [r]
  | .load4b r _ => [r]
  | .load5b r _ => [r]
  | .load6b r _ => [r]
  | .load7b r _ => [r]
  | .load8b r _ => [r]
  | .add a b d => [a, b, d]
  | .sub a b d => [a, b, d]
  | .mul a b d => [a, b, d]
  | .div a b d => [a, b, d]
  | .not r => [r]
  | .and d r => [d, r]
  | .or d r => [d, r]
  | .xor d r => [d, r]
  | .call _ => []
  | .ret => []
  | .endProgram => []
  | .cpuid => []
  | .int _ => []
  | .badop _ => []

end Sys2Proof
end

