-- ==== Sys2Proof/WellFormed.lean ====
section
/-! DEFINITION. Which terms of `Instr` stand for an encoding. -/

namespace Sys2Proof

/-- Every operand byte and immediate is encodable (R81, R93); the only check is that `badop` holds an opcode byte
that no other row of the table takes (R90: 22 to 255). -/
def Instr.wellFormed : Instr → Bool
  | .nop => true
  | .load1b _ _ => true
  | .load2b _ _ => true
  | .load3b _ _ => true
  | .load4b _ _ => true
  | .load5b _ _ => true
  | .load6b _ _ => true
  | .load7b _ _ => true
  | .load8b _ _ => true
  | .add _ _ _ => true
  | .sub _ _ _ => true
  | .mul _ _ _ => true
  | .div _ _ _ => true
  | .not _ => true
  | .and _ _ => true
  | .or _ _ => true
  | .xor _ _ => true
  | .call _ => true
  | .ret => true
  | .endProgram => true
  | .cpuid => true
  | .int _ => true
  | .badop op => decide (22 ≤ op.toNat)

end Sys2Proof
end

