-- ==== Sys2Proof/Decode.lean ====
section
/-! DEFINITION. The decoder and the encoder, both written from the format and opcode tables of
30_encoding.md (R82, R84, R90), and the little-endian numbers they read and write (R54, R55). -/

namespace Sys2Proof

/-- Little-endian value of a byte list: `b1 + 256*b2 + ...` (R54, R55). -/
def leNat : List Byte → Nat
  | [] => 0
  | b :: bs => b.toNat + 256 * leNat bs

/-- The `k` low bytes of `v`, least significant first (R11, R94). -/
def leBytes : Nat → Nat → List Byte
  | 0, _ => []
  | k + 1, v => BitVec.ofNat 8 v :: leBytes k (v / 256)

/-- The length in bytes of the instruction whose opcode byte is `op`: `Length(op)` of R84. -/
def opLength (op : Byte) : Nat :=
  match op.toNat with
  | 0 => 1
  | 1 => 3
  | 2 => 4
  | 3 => 5
  | 4 => 6
  | 5 => 7
  | 6 => 8
  | 7 => 9
  | 8 => 10
  | 9 => 4
  | 10 => 4
  | 11 => 4
  | 12 => 4
  | 13 => 2
  | 14 => 3
  | 15 => 3
  | 16 => 3
  | 17 => 9
  | 18 => 1
  | 19 => 1
  | 20 => 1
  | 21 => 2
  | _ => 1

/-- How many operand bytes follow the opcode byte `op` (R84). -/
def operandCount (op : Byte) : Nat := opLength op - 1

/-- Operand byte `j` (the first one is 0) of the operand bytes `bs`; total, and only used below the count. -/
def operand (bs : List Byte) (j : Nat) : Byte := bs.getD j 0

/-- The immediate that starts at operand byte `j`, little-endian, `w` bits wide (R87, R88). -/
def immediate (w : Nat) (bs : List Byte) (j : Nat) : BitVec w := BitVec.ofNat w (leNat (bs.drop j))

/-- The instruction of opcode byte `op` with operand bytes `bs`: one arm per row of R90, and R96's last arm. -/
def assembleInstr (op : Byte) (bs : List Byte) : Instr :=
  match op.toNat with
  | 0 => .nop
  | 1 => .load1b (operand bs 0) (immediate 8 bs 1)
  | 2 => .load2b (operand bs 0) (immediate 16 bs 1)
  | 3 => .load3b (operand bs 0) (immediate 24 bs 1)
  | 4 => .load4b (operand bs 0) (immediate 32 bs 1)
  | 5 => .load5b (operand bs 0) (immediate 40 bs 1)
  | 6 => .load6b (operand bs 0) (immediate 48 bs 1)
  | 7 => .load7b (operand bs 0) (immediate 56 bs 1)
  | 8 => .load8b (operand bs 0) (immediate 64 bs 1)
  | 9 => .add (operand bs 0) (operand bs 1) (operand bs 2)
  | 10 => .sub (operand bs 0) (operand bs 1) (operand bs 2)
  | 11 => .mul (operand bs 0) (operand bs 1) (operand bs 2)
  | 12 => .div (operand bs 0) (operand bs 1) (operand bs 2)
  | 13 => .not (operand bs 0)
  | 14 => .and (operand bs 0) (operand bs 1)
  | 15 => .or (operand bs 0) (operand bs 1)
  | 16 => .xor (operand bs 0) (operand bs 1)
  | 17 => .call (immediate 64 bs 0)
  | 18 => .ret
  | 19 => .endProgram
  | 20 => .cpuid
  | 21 => .int (operand bs 0)
  | _ => .badop op

/-- Why a byte list holds no whole instruction. Every opcode byte has a meaning (R96), so these are all. -/
inductive DecodeError where
  /-- There is no opcode byte (R112). -/
  | noOpcode
  /-- The bytes end inside the operands (R114). -/
  | truncated
deriving DecidableEq, Repr

/-- The instruction at the head of a byte list, and the bytes after it. The opcode byte alone decides how many
operand bytes follow (R80, R84, R96). -/
def decode : List Byte → Except DecodeError (Instr × List Byte)
  | [] => .error .noOpcode
  | op :: rest =>
    if rest.length < operandCount op then .error .truncated
    else .ok (assembleInstr op (rest.take (operandCount op)), rest.drop (operandCount op))

/-- The opcode byte of an instruction (R90). -/
def Instr.opcode : Instr → Byte
  | .nop => 0x00
  | .load1b _ _ => 0x01
  | .load2b _ _ => 0x02
  | .load3b _ _ => 0x03
  | .load4b _ _ => 0x04
  | .load5b _ _ => 0x05
  | .load6b _ _ => 0x06
  | .load7b _ _ => 0x07
  | .load8b _ _ => 0x08
  | .add _ _ _ => 0x09
  | .sub _ _ _ => 0x0A
  | .mul _ _ _ => 0x0B
  | .div _ _ _ => 0x0C
  | .not _ => 0x0D
  | .and _ _ => 0x0E
  | .or _ _ => 0x0F
  | .xor _ _ => 0x10
  | .call _ => 0x11
  | .ret => 0x12
  | .endProgram => 0x13
  | .cpuid => 0x14
  | .int _ => 0x15
  | .badop op => op

/-- The operand bytes of an instruction, in program order (R82, R83). -/
def Instr.operandBytes : Instr → List Byte
  | .nop => []
  | .load1b r imm => r :: leBytes 1 imm.toNat
  | .load2b r imm => r :: leBytes 2 imm.toNat
  | .load3b r imm => r :: leBytes 3 imm.toNat
  | .load4b r imm => r :: leBytes 4 imm.toNat
  | .load5b r imm => r :: leBytes 5 imm.toNat
  | .load6b r imm => r :: leBytes 6 imm.toNat
  | .load7b r imm => r :: leBytes 7 imm.toNat
  | .load8b r imm => r :: leBytes 8 imm.toNat
  | .add a b d => [a, b, d]
  | .sub a b d => [a, b, d]
  | .mul a b d => [a, b, d]
  | .div a b d => [a, b, d]
  | .not r => [r]
  | .and d r => [d, r]
  | .or d r => [d, r]
  | .xor d r => [d, r]
  | .call a => leBytes 8 a.toNat
  | .ret => []
  | .endProgram => []
  | .cpuid => []
  | .int n => [n]
  | .badop _ => []

/-- The bytes of an instruction, lowest offset first (R80, R82). -/
def encode (i : Instr) : List Byte := i.opcode :: i.operandBytes

/-- The longest instruction is LOAD8B, 10 bytes (R84). -/
def maxLength : Nat := 10

/-- The `maxLength` bytes of a table word: bit 0 is the least significant bit of the first byte (R82), bits from
`nbits` on are 0. -/
def tableBytes (nbits w : Nat) : List Byte := leBytes maxLength (w % 2 ^ nbits)

/-- The instruction the decoder reads from a row's bits. -/
def decodeTableWord (nbits w : Nat) : Option Instr :=
  match decode (tableBytes nbits w) with
  | .ok (i, _) => some i
  | .error _ => none

end Sys2Proof
end

