-- ==== Sys2Proof/Config.lean ====
section
/-! DEFINITION. What the spec makes a parameter of the machine: the greatest memory length (R7) and the
interrupt handlers (R7, R18, R223). The handlers' behaviour is free: opaque constants without a body. -/

namespace Sys2Proof

/-- The host callback registered for an interrupt number, as plain data (R35, R41: what it does is no state).
`id` names the callback. `dutiful` says that the host vouches for the duties of R224: it returns, and it does
not call `step()`. (Log entries 3 and 4.) -/
structure Handler where
  id : Nat
  dutiful : Bool
deriving DecidableEq, Repr

/-- The interrupt table: 256 entries, each empty or holding one handler (R35, D25). -/
abbrev HandlerTable := Vector (Option Handler) 256

/-- `MEM_MAX` of R7: the greatest length of the memory in bytes. -/
def memMax : Nat := 2 ^ 64 - 1

/-- The whole processor state `(mem, pc, status, x, cs, it)` of R20, as a handler receives it on loan (R220, R223). -/
structure Borrow where
  mem : List Byte
  pc : Word
  status : Bool
  regs : Vector Word 16
  cs : List Word
  it : HandlerTable
deriving DecidableEq, Repr

/-- The whole processor state as a handler leaves it. Its memory is at most `MEM_MAX` bytes long, because no
longer byte sequence is a state of the machine (R20, R53). (Log entry 16.) -/
structure Returned where
  mem : List Byte := []
  memFits : mem.length ≤ memMax := by decide
  pc : Word
  status : Bool
  regs : Vector Word 16
  cs : List Word
  it : HandlerTable
deriving DecidableEq, Repr, Inhabited

/-- What one call of a handler does with the contract of R224. -/
inductive Conduct where
  | returns       -- it returns, R224(a), and kept to the state it was lent
  | neverReturns  -- the INT step never completes, U19
  | callsStep     -- it calls `step()` on the same instance, which has no meaning, R224(b), U18
deriving DecidableEq, Repr, Inhabited

/-- FREE VALUE (R223, D15, log entry 3): the state a returning call of a handler leaves, by the handler, the
interrupt number, how many handler calls went before, and the state it was lent. No body: nothing is known of it. -/
opaque Config.handlerResult : Handler → Byte → Nat → Borrow → Returned

/-- FREE VALUE (R224, D15, log entry 4): the conduct of one call of a handler the host does not vouch for. -/
opaque Config.handlerConduct : Handler → Byte → Nat → Borrow → Conduct

end Sys2Proof
end

