-- ==== Sys2Proof/Machine/Memory.lean ====
section
/-! DEFINITION. The memory `mem` of R39 and R50: a byte sequence, held as the cells (0, b0), (1, b1), ..., so that
an unlisted address is one that does not exist (R51) and equal memories are equal lists. (Log entry 1.) -/

namespace Sys2Proof.Machine

/-- The byte sequence `mem`; cell `a` is listed iff offset `a` is addressable (R51). -/
abbrev Memory := List Host.Cell

/-- The cells of `bs` at offsets `n`, `n + 1`, .... -/
def Memory.cellsFrom : Nat → List Byte → Memory
  | _, [] => []
  | n, b :: bs => (n, b) :: Memory.cellsFrom (n + 1) bs

/-- The memory that holds exactly the byte sequence `bs`. -/
def Memory.ofBytes (bs : List Byte) : Memory := Memory.cellsFrom 0 bs

/-- The byte sequence a memory holds. -/
def Memory.bytes (m : Memory) : List Byte := m.map Prod.snd

/-- `mem[a]` of R11; none where there is no byte, which is how an offset past the end reads (R51). -/
def Memory.read? : Memory → Nat → Option Byte
  | [], _ => none
  | (k, b) :: m, a => if k = a then some b else Memory.read? m a

/-- The cells are at `n`, `n + 1`, ...: strictly rising, without a gap. -/
def Memory.wfFrom : Nat → Memory → Bool
  | _, [] => true
  | n, (k, _) :: m => decide (k = n) && Memory.wfFrom (n + 1) m

/-- The canonical form: the cells are at 0, 1, ..., len(mem) - 1 (R20, R38). -/
def Memory.wf (m : Memory) : Bool := Memory.wfFrom 0 m

/-- `mem ++ bs` of R242: the bytes land at offsets len(mem), len(mem) + 1, .... -/
def Memory.append (m : Memory) (bs : List Byte) : Memory := m ++ Memory.cellsFrom m.length bs

/-- The bytes `bs` stored from offset `a` on, the rest as before; a gap between the end of the memory and `a` is
filled with zero bytes. No instruction does this (R59): it serves what a handler may do to `mem` (R11, R225). -/
def Memory.writeBytes (m : Memory) (a : Nat) (bs : List Byte) : Memory :=
  Memory.ofBytes
    (m.bytes.take a ++ List.replicate (a - m.length) 0 ++ bs ++ m.bytes.drop (a + bs.length))

end Sys2Proof.Machine
end

