-- ==== Sys2Proof/Machine/State.lean ====
section
/-! DEFINITION. The state of the machine: the six items of R20, and two fields of the model's own (the signal the
latest step reported, and the count of handler calls). Plain data throughout. -/

namespace Sys2Proof.Machine

/-- The ten signals a step can report (R270). -/
inductive Signal where
  | normal
  | normalTermination
  | programExhausted
  | overflowed
  | badOpcode
  | registerFault
  | divisionFault
  | callStackUnderflow
  | unhandledInterrupt
  | notRunning
deriving DecidableEq, Repr

/-- The state of the core (R20). -/
structure State where
  /-- The memory, code and data in one (R39, R50). -/
  mem : Memory
  /-- The offset of the next byte to fetch (R26). -/
  pc : Word
  /-- True while running, false when halted (R30). -/
  status : Bool
  /-- The general registers `x[0]` to `x[15]` (R21). -/
  regs : Vector Word 16
  /-- The call stack; its last element is the top (R14, R34). -/
  cs : List Word
  /-- The interrupt table (R35). -/
  it : HandlerTable
  /-- The MODEL's own: the signal of the latest step, the `last_signal` cell R40 allows. No rule reads it (log entry 2). -/
  signal : Signal
  /-- The MODEL's own: how many handler calls were made, which makes a handler's free behaviour fresh at every
  call (log entry 3). -/
  handlerCalls : Nat
deriving DecidableEq, Repr

/-- How the machine can stop without a next state. The signals of R270 are no such stops: each is a next state. -/
inductive Fault where
  /-- Raised by INT when the handler, not vouched for by the host, never returns: the step never completes (U19,
  R224(a)). Safe: nothing can be proved of a state after it. -/
  | handlerNeverReturns
deriving DecidableEq, Repr

/-- What has no meaning. -/
inductive Refusal where
  /-- Raised by an arm of `exec` whose instruction has no meaning yet; no arm is left so. Safe. -/
  | notModelled (mnemonic : String)
  /-- Raised by INT when the handler, not vouched for by the host, calls `step()` on the same instance, which the
  spec gives no meaning (R224(b), U18). Safe. -/
  | nestedStep
  /-- Raised by the host operation `load` when the memory would exceed `MEM_MAX` (R243, D14, U21). Safe. -/
  | memoryFull
deriving DecidableEq, Repr

/-- What a step, an instruction or a host operation answers. -/
abbrev Result := Host.Outcome State Fault Refusal

/-- A newly constructed Processor, "constructed empty/halted" (R241, R310). The registers are 0 by D12 (log entry 5),
`pc` is 0 by R29 (log entry 6); `signal` and `handlerCalls` are the model's own (log entries 2 and 3). -/
def State.reset : State where
  mem := []
  pc := 0
  status := false
  regs := Vector.replicate 16 0
  cs := []
  it := Vector.replicate 256 none
  signal := .notRunning
  handlerCalls := 0

end Sys2Proof.Machine
end

