-- ==== Sys2Proof/Machine/Flags.lean ====
section
/-! DEFINITION. What the spec computes in place of condition codes (R32): the signal of a step (R270, R271) and
the signed arithmetic that decides `Overflowed` (R9, R152, R279). -/

namespace Sys2Proof.Machine

/-- The spec's own code of each signal (R270, D16). -/
def Signal.code : Signal → Nat
  | .normal => 0
  | .normalTermination => 1
  | .programExhausted => 2
  | .overflowed => 3
  | .badOpcode => 4
  | .registerFault => 5
  | .divisionFault => 6
  | .callStackUnderflow => 7
  | .unhandledInterrupt => 8
  | .notRunning => 9

/-- The fatal faults (R19, R271). -/
def Signal.isFatal : Signal → Bool
  | .normal => false
  | .normalTermination => false
  | .programExhausted => false
  | .overflowed => false
  | .badOpcode => false
  | .registerFault => true
  | .divisionFault => true
  | .callStackUnderflow => true
  | .unhandledInterrupt => true
  | .notRunning => false

/-- The signals that clear `status`: the fatal faults, `ProgramExhausted` and `NormalTermination` (R31, R271). -/
def Signal.clearsStatus (g : Signal) : Bool :=
  g.isFatal || decide (g = .programExhausted) || decide (g = .normalTermination)

/-- `INT64_MIN` of R9. -/
def int64Min : Int := -9223372036854775808

/-- `INT64_MAX` of R9. -/
def int64Max : Int := 9223372036854775807

/-- `s64(w)` of R9: the pattern read as two's complement signed. -/
def s64 (w : Word) : Int := w.toInt

/-- `wrap64(z)` of R9: the pattern congruent to `z` modulo 2^64. -/
def wrap64 (z : Int) : Word := BitVec.ofInt 64 z

/-- The exact result lies outside the signed 64-bit range (R152, D27). -/
def overflows (z : Int) : Bool := decide (z < int64Min) || decide (int64Max < z)

/-- The signal of an arithmetic instruction whose exact result is `z` (R150, R152). -/
def arithSignal (z : Int) : Signal := if overflows z then .overflowed else .normal

/-- `tdiv(a, b)` of R16: the quotient rounded toward zero (D5). -/
def tdiv (a b : Int) : Int := Int.tdiv a b

end Sys2Proof.Machine
end

