-- ==== Sys2Proof/Machine/Ops.lean ====
section
/-! DEFINITION. The named operations over the state: registers, program counter, call stack, interrupt table,
memory primitives, raising a signal (this machine's exception entry) and resuming after a stop. -/

namespace Sys2Proof.Machine

/-- `x[i]` (R10). No register is hardwired (R10, R21). -/
def State.readReg (s : State) (i : Fin 16) : Word := s.regs[i.val]

/-- `x[i] <- v` (R10). -/
def State.writeReg (s : State) (i : Fin 16) (v : Word) : State := { s with regs := s.regs.set i.val v }

/-- `pc <- target` (R17). -/
def State.setPc (s : State) (target : Word) : State := { s with pc := target }

/-- `push(v)` (R14): append at the top, without bound (R34, D13). -/
def State.push (s : State) (v : Word) : State := { s with cs := s.cs ++ [v] }

/-- `pop()` (R14): the last element and the state without it; none when the stack is empty. -/
def State.pop (s : State) : Option (Word × State) :=
  match s.cs.getLast? with
  | none => none
  | some t => some (t, { s with cs := s.cs.dropLast })

/-- `it[n]` (R18, R35). -/
def State.lookupHandler (s : State) (n : Byte) : Option Handler := s.it[n.toNat]'n.isLt

/-- `it[n] <- h` (R244). -/
def State.setHandler (s : State) (n : Byte) (h : Handler) : State :=
  { s with it := s.it.set n.toNat (some h) n.isLt }

/-- TAKING AN EXCEPTION (R13, R271, R283): the step's signal is recorded and `status` is cleared for the signals that
clear it. Nothing else: no register saves the pc or the status, no mode changes, control goes to no address; `pc`
stays where the fetches left it (R117, R285). `raise .normal` is how an instruction completes (R278). -/
def State.raise (s : State) (g : Signal) : State :=
  { s with signal := g, status := s.status && !g.clearsStatus }

/-- RESUMING after a stop, the host's `start()` (R246, R286): there is no return-from-trap instruction, and since
nothing was saved nothing is restored. -/
def State.start (s : State) : State := { s with status := true }

/-- A step's result `(signal, continue)` (R17, R118). -/
def State.stepResult (s : State) : Signal × Bool := (s.signal, s.status)

/-- `MemRead(addr, n)` of R11: the little-endian value of `n` bytes, none when one of them does not exist. -/
def State.memRead (s : State) (addr n : Nat) : Option Nat :=
  ((List.range n).mapM fun j => s.mem.read? (addr + j)).map leNat

/-- `MemWrite(addr, n, v)` of R11. No instruction performs it (R59). -/
def State.memWrite (s : State) (addr n v : Nat) : State :=
  { s with mem := s.mem.writeBytes addr (leBytes n v) }

/-- The state handed to a handler: the six items of R20 (R220, R223). -/
def State.borrow (s : State) : Borrow where
  mem := s.mem.bytes
  pc := s.pc
  status := s.status
  regs := s.regs
  cs := s.cs
  it := s.it

/-- The state after a handler returned: whatever it left (R226), and one more handler call counted. -/
def State.giveBack (s : State) (r : Returned) : State where
  mem := Memory.ofBytes r.mem
  pc := r.pc
  status := r.status
  regs := r.regs
  cs := r.cs
  it := r.it
  signal := s.signal
  handlerCalls := s.handlerCalls + 1

end Sys2Proof.Machine
end

