-- ==== Sys2Proof/Machine/Operands.lean ====
section
/-! DEFINITION. The operand forms (R81): register operands with their validation (R24, R115) and zero-extended
immediates (R15, R87). Address and interrupt-number operands need no check (R81, R192). -/

namespace Sys2Proof.Machine

/-- The register a register operand byte names: all eight bits are compared with 15 (R24, D19). -/
def regIndex? (b : Byte) : Option (Fin 16) := if h : b.toNat < 16 then some ⟨b.toNat, h⟩ else none

/-- Validate one register operand, else raise `RegisterFault` (R115). -/
def withReg (b : Byte) (s : State) (k : Fin 16 → Result) : Result :=
  match regIndex? b with
  | none => .next (s.raise .registerFault)
  | some i => k i

/-- Validate two register operands (R115). -/
def withReg2 (b c : Byte) (s : State) (k : Fin 16 → Fin 16 → Result) : Result :=
  withReg b s fun i => withReg c s fun j => k i j

/-- Validate three register operands (R115). -/
def withReg3 (b c d : Byte) (s : State) (k : Fin 16 → Fin 16 → Fin 16 → Result) : Result :=
  withReg b s fun i => withReg c s fun j => withReg d s fun l => k i j l

/-- `zext_64(v)` of R15. -/
def zext64 {w : Nat} (v : BitVec w) : Word := v.setWidth 64

end Sys2Proof.Machine
end

