-- ==== Sys2Proof/Machine/Arith.lean ====
section
/-! DEFINITION. ADD, SUB, MUL, DIV (R150 to R158). -/

namespace Sys2Proof.Machine

/-- The end of the skeleton of R150: write `wrap64(z)` and report `Overflowed` exactly when the exact `z` does not
fit (R152, D4, D27, log entry 9). -/
def finishArith (d : Fin 16) (z : Int) (s : State) : Result :=
  .next ((s.writeReg d (wrap64 z)).raise (arithSignal z))

/-- The skeleton of R150: validate, read both sources before any write (R151), `src1` the left operand and `src2`
the right (D7, log entry 11). -/
def arith (op : Int → Int → Int) (src1 src2 dst : Byte) (s : State) : Result :=
  withReg3 src1 src2 dst s fun i j d => finishArith d (op (s64 (s.readReg i)) (s64 (s.readReg j))) s

/-- ADD (R153). -/
def execAdd (src1 src2 dst : Byte) (s : State) : Result := arith (fun a b => a + b) src1 src2 dst s

/-- SUB (R154): minuend `src1`, subtrahend `src2`. -/
def execSub (src1 src2 dst : Byte) (s : State) : Result := arith (fun a b => a - b) src1 src2 dst s

/-- MUL (R155): the low 64 bits of the exact product. -/
def execMul (src1 src2 dst : Byte) (s : State) : Result := arith (fun a b => a * b) src1 src2 dst s

/-- DIV (R156): the divisor check comes after the register check (R115, R282) and before any write; the quotient
rounds toward zero (D5, log entry 10) and only `INT64_MIN / -1` overflows (D6). -/
def execDiv (src1 src2 dst : Byte) (s : State) : Result :=
  withReg3 src1 src2 dst s fun i j d =>
    if s64 (s.readReg j) = 0 then .next (s.raise .divisionFault)
    else finishArith d (tdiv (s64 (s.readReg i)) (s64 (s.readReg j))) s

end Sys2Proof.Machine
end

