-- ==== Sys2Proof/Machine/Bitwise.lean ====
section
/-! DEFINITION. NOT, AND, OR, XOR (R170 to R175). -/

namespace Sys2Proof.Machine

/-- What AND, OR and XOR share (R170): the first operand is the left source and the destination. -/
def bitwise (op : Word → Word → Word) (dst right : Byte) (s : State) : Result :=
  withReg2 dst right s fun d r =>
    .next ((s.writeReg d (op (s.readReg d) (s.readReg r))).raise .normal)

/-- NOT (R171): every one of the 64 bits inverted, in place. -/
def execNot (reg : Byte) (s : State) : Result :=
  withReg reg s fun r => .next ((s.writeReg r (~~~ s.readReg r)).raise .normal)

/-- AND (R172). -/
def execAnd (dst right : Byte) (s : State) : Result := bitwise (fun a b => a &&& b) dst right s

/-- OR (R173). -/
def execOr (dst right : Byte) (s : State) : Result := bitwise (fun a b => a ||| b) dst right s

/-- XOR (R174). -/
def execXor (dst right : Byte) (s : State) : Result := bitwise (fun a b => a ^^^ b) dst right s

end Sys2Proof.Machine
end

