-- ==== Sys2Proof/Machine/Control.lean ====
section
/-! DEFINITION. CALL, RET and END (R190 to R196, R210). -/

namespace Sys2Proof.Machine

/-- CALL (R191): push the next-instruction offset, which `pc` holds (R116), and go to `address`, not validated
(R192, D20), with no `-1` (D1, log entry 7). -/
def execCall (address : Word) (s : State) : Result :=
  .next (((s.push s.pc).setPc address).raise .normal)

/-- RET (R193): pop and go there, not validated; `CallStackUnderflow` when the stack is empty. -/
def execRet (s : State) : Result :=
  match s.pop with
  | none => .next (s.raise .callStackUnderflow)
  | some (t, s') => .next ((s'.setPc t).raise .normal)

/-- END (R210): `status <- false`, `NormalTermination`; nothing else changes. -/
def execEnd (s : State) : Result := .next (s.raise .normalTermination)

end Sys2Proof.Machine
end

