-- ==== Sys2Proof/Machine/Interrupt.lean ====
section
/-! DEFINITION. INT and the handler dispatcher (R220 to R228). -/

namespace Sys2Proof.Machine

/-- How this call of handler `h` keeps the contract of R224: as the host vouches, else free (log entry 4). -/
def handlerConduct (h : Handler) (n : Byte) (s : State) : Conduct :=
  if h.dutiful then .returns else Config.handlerConduct h n s.handlerCalls s.borrow

/-- The state the handler leaves (R223, R226): free (log entry 3). -/
def handlerLeaves (h : Handler) (n : Byte) (s : State) : State :=
  s.giveBack (Config.handlerResult h n s.handlerCalls s.borrow)

/-- `Invoke(h, n)` inside the INT step (R222): exactly once, with `pc` at the next-instruction offset; after it
returns the step reports `Normal`, whatever the handler did (R226). -/
def invoke (h : Handler) (n : Byte) (s : State) : Result :=
  match handlerConduct h n s with
  | .returns => .next ((handlerLeaves h n s).raise .normal)
  | .neverReturns => .fault .handlerNeverReturns
  | .callsStep => .refused .nestedStep

/-- INT (R221): look the number up; an empty entry is `UnhandledInterrupt` (R228). -/
def execInt (intno : Byte) (s : State) : Result :=
  match s.lookupHandler intno with
  | none => .next (s.raise .unhandledInterrupt)
  | some h => invoke h intno s

end Sys2Proof.Machine
end

