-- ==== Sys2Proof/Machine/Load.lean ====
section
/-! DEFINITION. The LOAD family (R130 to R138). -/

namespace Sys2Proof.Machine

/-- What the family shares (R130): validate `reg`, then overwrite the whole register with the zero-extended
immediate; no sign extension, for k = 8 the pattern as it stands (R138, C4). -/
def loadImmediate {w : Nat} (reg : Byte) (imm : BitVec w) (s : State) : Result :=
  withReg reg s fun i => .next ((s.writeReg i (zext64 imm)).raise .normal)

/-- LOAD1B (R131). -/
def execLoad1b (reg : Byte) (imm : BitVec 8) (s : State) : Result := loadImmediate reg imm s

/-- LOAD2B (R132). -/
def execLoad2b (reg : Byte) (imm : BitVec 16) (s : State) : Result := loadImmediate reg imm s

/-- LOAD3B (R133). -/
def execLoad3b (reg : Byte) (imm : BitVec 24) (s : State) : Result := loadImmediate reg imm s

/-- LOAD4B (R134). -/
def execLoad4b (reg : Byte) (imm : BitVec 32) (s : State) : Result := loadImmediate reg imm s

/-- LOAD5B (R135). -/
def execLoad5b (reg : Byte) (imm : BitVec 40) (s : State) : Result := loadImmediate reg imm s

/-- LOAD6B (R136). -/
def execLoad6b (reg : Byte) (imm : BitVec 48) (s : State) : Result := loadImmediate reg imm s

/-- LOAD7B (R137). -/
def execLoad7b (reg : Byte) (imm : BitVec 56) (s : State) : Result := loadImmediate reg imm s

/-- LOAD8B (R138). -/
def execLoad8b (reg : Byte) (imm : BitVec 64) (s : State) : Result := loadImmediate reg imm s

end Sys2Proof.Machine
end

