-- ==== Sys2Proof/Machine/StepAndNop.lean ====
section
/-! DEFINITION. NOP, CPUID and the invalid opcodes (R120 to R122). -/

namespace Sys2Proof.Machine

/-- NOP (R120): nothing but the pc advance, which the fetch made. -/
def execNop (s : State) : Result := .next (s.raise .normal)

/-- CPUID (R121): "must decode but act as BADOP". -/
def execCpuid (s : State) : Result := .next (s.raise .badOpcode)

/-- An invalid opcode (R122): `BadOpcode`, recoverable, only the opcode byte consumed (D2, log entry 8). -/
def execBadop (_op : Byte) (s : State) : Result := .next (s.raise .badOpcode)

end Sys2Proof.Machine
end

