-- ==== Sys2Proof/Machine/Dispatch.lean ====
section
/-! DEFINITION. `exec`: one arm per instruction, each one direct call of its meaning. It runs with `pc` at the
next-instruction offset (R116). -/

namespace Sys2Proof.Machine

def exec (i : Instr) (s : State) : Host.Outcome State Fault Refusal :=
  match i with
  | .nop => Sys2Proof.Machine.execNop s
  | .load1b reg imm => Sys2Proof.Machine.execLoad1b reg imm s
  | .load2b reg imm => Sys2Proof.Machine.execLoad2b reg imm s
  | .load3b reg imm => Sys2Proof.Machine.execLoad3b reg imm s
  | .load4b reg imm => Sys2Proof.Machine.execLoad4b reg imm s
  | .load5b reg imm => Sys2Proof.Machine.execLoad5b reg imm s
  | .load6b reg imm => Sys2Proof.Machine.execLoad6b reg imm s
  | .load7b reg imm => Sys2Proof.Machine.execLoad7b reg imm s
  | .load8b reg imm => Sys2Proof.Machine.execLoad8b reg imm s
  | .add src1 src2 dst => Sys2Proof.Machine.execAdd src1 src2 dst s
  | .sub src1 src2 dst => Sys2Proof.Machine.execSub src1 src2 dst s
  | .mul src1 src2 dst => Sys2Proof.Machine.execMul src1 src2 dst s
  | .div src1 src2 dst => Sys2Proof.Machine.execDiv src1 src2 dst s
  | .not reg => Sys2Proof.Machine.execNot reg s
  | .and dst right => Sys2Proof.Machine.execAnd dst right s
  | .or dst right => Sys2Proof.Machine.execOr dst right s
  | .xor dst right => Sys2Proof.Machine.execXor dst right s
  | .call address => Sys2Proof.Machine.execCall address s
  | .ret => Sys2Proof.Machine.execRet s
  | .endProgram => Sys2Proof.Machine.execEnd s
  | .cpuid => Sys2Proof.Machine.execCpuid s
  | .int intno => Sys2Proof.Machine.execInt intno s
  | .badop op => Sys2Proof.Machine.execBadop op s

end Sys2Proof.Machine
end

