-- ==== Sys2Proof/Machine/Fetch.lean ====
section
/-! DEFINITION. Fetching an instruction from the byte sequence at `pc` (R12, R113, R114), and the two ends of a
step that run no instruction (R111, R112). -/

namespace Sys2Proof.Machine

/-- `FetchByte()` (R12): the byte at `pc`, and the state with `pc` one further; none at the end of the memory. -/
def fetchByte (s : State) : Option (Byte × State) :=
  match s.mem.read? s.pc.toNat with
  | none => none
  | some b => some (b, s.setPc (s.pc + 1))

/-- `n` successive `FetchByte()`s, stopping at the end of the memory: the bytes got and the state after them; the
bytes already fetched are not un-fetched (R114). -/
def fetchBytes : Nat → State → List Byte × State
  | 0, s => ([], s)
  | n + 1, s =>
    match fetchByte s with
    | none => ([], s)
    | some (b, s1) => (b :: (fetchBytes n s1).1, (fetchBytes n s1).2)

/-- What fetching an instruction gives: the instruction and the state to run it in, or the end of the program. -/
inductive Fetched where
  | instr (i : Instr) (s : State)
  | exhausted (s : State)
deriving DecidableEq, Repr

/-- Fetch the opcode byte, then all the operand bytes its length asks for, before anything is checked or executed
(R110, R113, R114, D8). -/
def fetchInstr (s : State) : Fetched :=
  match fetchByte s with
  | none => .exhausted s
  | some (op, s1) =>
    match decode (op :: (fetchBytes (operandCount op) s1).1) with
    | .ok (i, _) => .instr i (fetchBytes (operandCount op) s1).2
    | .error _ => .exhausted (fetchBytes (operandCount op) s1).2

/-- A step while halted (R111): no state of R20 changes; the step reports `NotRunning`. -/
def stepHalted (s : State) : State := s.raise .notRunning

/-- A fetch was due and there was no byte (R112, R114): `ProgramExhausted`, which clears `status`. -/
def exhaust (s : State) : State := s.raise .programExhausted

/-- The state whose next step fetches `bs`: they lie at `pc`, and the core is running (R246). -/
def placeProgram (s : State) (bs : List Byte) : State :=
  { s with mem := s.mem.writeBytes s.pc.toNat bs, status := true }

end Sys2Proof.Machine
end

