-- ==== Sys2Proof/Machine/Step.lean ====
section
/-! DEFINITION. The step (R110), and the state whose next step runs a given instruction. -/

namespace Sys2Proof.Machine

/-- `step()` of R110: one instruction, or none when halted (R111) or at the end of the program (R112, R114). -/
def step (s : State) : Host.Outcome State Fault Refusal :=
  if s.status then
    match fetchInstr s with
    | .instr i s' => exec i s'
    | .exhausted s' => .next (exhaust s')
  else .next (stepHalted s)

/-- `s` with the instruction of the table word `w` at `pc`, running: what the host's `load` and `start` bring about
(R313, log entry 14). -/
def State.withFetchWord (s : State) (nbits w : Nat) : State := placeProgram s (tableBytes nbits w)

end Sys2Proof.Machine
end

