-- ==== Sys2Proof/Asm.lean ====
section
/-! DEFINITION. The assembler syntax of R94 as data: one constructor per form of its table, the bytes each form
emits, the instruction it names, and its text. R95: there are no pseudo-instructions. -/

namespace Sys2Proof

/-- One assembly line (R94). Registers are `r0` to `r15`; `load k` is LOAD(k+1)B; `byte` is the directive for raw
bytes. Numbers are unbounded here: `AsmLine.bytes?` refuses those the form does not admit. -/
inductive AsmLine where
  | nop
  | load (k : Fin 8) (reg : Fin 16) (value : Nat)
  | add (src1 src2 dst : Fin 16)
  | sub (src1 src2 dst : Fin 16)
  | mul (src1 src2 dst : Fin 16)
  | div (src1 src2 dst : Fin 16)
  | not (reg : Fin 16)
  | and (dst right : Fin 16)
  | or (dst right : Fin 16)
  | xor (dst right : Fin 16)
  | call (address : Nat)
  | ret
  | endProgram
  | cpuid
  | int (intno : Nat)
  | byte (v : Nat)
deriving DecidableEq, Repr

/-- The operand byte that names register `i` (R86). -/
def regByte (i : Fin 16) : Byte := BitVec.ofNat 8 i.val

/-- LOAD(k+1)B with the register byte `r` and the immediate `v`. -/
def loadInstr (k : Fin 8) (r : Byte) (v : Nat) : Instr :=
  match k with
  | 0 => .load1b r (BitVec.ofNat 8 v)
  | 1 => .load2b r (BitVec.ofNat 16 v)
  | 2 => .load3b r (BitVec.ofNat 24 v)
  | 3 => .load4b r (BitVec.ofNat 32 v)
  | 4 => .load5b r (BitVec.ofNat 40 v)
  | 5 => .load6b r (BitVec.ofNat 48 v)
  | 6 => .load7b r (BitVec.ofNat 56 v)
  | 7 => .load8b r (BitVec.ofNat 64 v)

/-- The bytes a line emits, by the table of R94; none when a number is out of the form's range. -/
def AsmLine.bytes? : AsmLine → Option (List Byte)
  | .nop => some [0x00]
  | .load k r v =>
    if v < 2 ^ (8 * (k.val + 1)) then
      some (BitVec.ofNat 8 (k.val + 1) :: regByte r :: leBytes (k.val + 1) v)
    else none
  | .add a b d => some [0x09, regByte a, regByte b, regByte d]
  | .sub a b d => some [0x0A, regByte a, regByte b, regByte d]
  | .mul a b d => some [0x0B, regByte a, regByte b, regByte d]
  | .div a b d => some [0x0C, regByte a, regByte b, regByte d]
  | .not r => some [0x0D, regByte r]
  | .and d b => some [0x0E, regByte d, regByte b]
  | .or d b => some [0x0F, regByte d, regByte b]
  | .xor d b => some [0x10, regByte d, regByte b]
  | .call a => if a < 2 ^ 64 then some (0x11 :: leBytes 8 a) else none
  | .ret => some [0x12]
  | .endProgram => some [0x13]
  | .cpuid => some [0x14]
  | .int n => if n < 256 then some [0x15, BitVec.ofNat 8 n] else none
  | .byte v => if v < 256 then some [BitVec.ofNat 8 v] else none

/-- The instruction a line names. A raw byte names one only when it is an invalid opcode (R94: that is its use). -/
def AsmLine.instr? : AsmLine → Option Instr
  | .nop => some .nop
  | .load k r v => some (loadInstr k (regByte r) v)
  | .add a b d => some (.add (regByte a) (regByte b) (regByte d))
  | .sub a b d => some (.sub (regByte a) (regByte b) (regByte d))
  | .mul a b d => some (.mul (regByte a) (regByte b) (regByte d))
  | .div a b d => some (.div (regByte a) (regByte b) (regByte d))
  | .not r => some (.not (regByte r))
  | .and d b => some (.and (regByte d) (regByte b))
  | .or d b => some (.or (regByte d) (regByte b))
  | .xor d b => some (.xor (regByte d) (regByte b))
  | .call a => some (.call (BitVec.ofNat 64 a))
  | .ret => some .ret
  | .endProgram => some .endProgram
  | .cpuid => some .cpuid
  | .int n => some (.int (BitVec.ofNat 8 n))
  | .byte v => if 22 ≤ v then some (.badop (BitVec.ofNat 8 v)) else none

/-- `r<i>` with `i` decimal (R94). -/
def regText (i : Fin 16) : String := "r" ++ toString i.val

/-- The text of a line: the mnemonic in capitals, then the operands in encoding order (R94). -/
def AsmLine.text : AsmLine → String
  | .nop => "NOP"
  | .load k r v => "LOAD" ++ toString (k.val + 1) ++ "B " ++ regText r ++ ", " ++ toString v
  | .add a b d => "ADD " ++ regText a ++ ", " ++ regText b ++ ", " ++ regText d
  | .sub a b d => "SUB " ++ regText a ++ ", " ++ regText b ++ ", " ++ regText d
  | .mul a b d => "MUL " ++ regText a ++ ", " ++ regText b ++ ", " ++ regText d
  | .div a b d => "DIV " ++ regText a ++ ", " ++ regText b ++ ", " ++ regText d
  | .not r => "NOT " ++ regText r
  | .and d b => "AND " ++ regText d ++ ", " ++ regText b
  | .or d b => "OR " ++ regText d ++ ", " ++ regText b
  | .xor d b => "XOR " ++ regText d ++ ", " ++ regText b
  | .call a => "CALL " ++ toString a
  | .ret => "RET"
  | .endProgram => "END"
  | .cpuid => "CPUID"
  | .int n => "INT " ++ toString n
  | .byte v => ".byte " ++ toString v

end Sys2Proof
end

