-- ==== Sys2Proof/Machine/HostInterface.lean ====
section
/-! DEFINITION. The operations of the host (R240): each one atomic transition, or one observation, of the state.
`start()` is `State.start` of Ops.lean, and `step()` is `step` of Step.lean. -/

namespace Sys2Proof.Machine

/-- Construction, the only reset (R241, R310, R311). -/
def construct : State := State.reset

/-- `load(bytes)` (R242): append; refused beyond `MEM_MAX` (R243, D14). Nothing is decoded and `pc` does not move. -/
def State.load (s : State) (bs : List Byte) : Result :=
  if s.mem.length + bs.length ≤ memMax then .next { s with mem := s.mem.append bs }
  else .refused .memoryFull

/-- `attach_interrupt(number, handler)` (R244): insert or overwrite, silently. -/
def State.attachInterrupt (s : State) (n : Byte) (h : Handler) : State := s.setHandler n h

/-- `halt()` (R248): `status <- false` and nothing else; it reports no signal. -/
def State.halt (s : State) : State := { s with status := false }

/-- `is_running()` (R247). -/
def State.isRunning (s : State) : Bool := s.status

/-- What `snapshot()` returns (R253): registers, stack, pc and memory, neither `status` nor the interrupt table. -/
structure Snapshot where
  regs : Vector Word 16
  cs : List Word
  pc : Word
  mem : List Byte
deriving DecidableEq, Repr

/-- `snapshot()` (R253): a view; it changes nothing. -/
def State.snapshot (s : State) : Snapshot where
  regs := s.regs
  cs := s.cs
  pc := s.pc
  mem := s.mem.bytes

/-- The content of the register dump (R254): each register whose value is not 0, with its signed value. The spec gives
its entries no order; by register index is a DESIGN CHOICE (log entry 24). -/
def State.registerDump (s : State) : List (Fin 16 × Int) :=
  ((List.finRange 16).filter fun i => s.readReg i != 0).map fun i => (i, s64 (s.readReg i))

/-- The content of the stack dump (R254): the entries from the top. -/
def State.stackDump (s : State) : List Word := s.cs.reverse

end Sys2Proof.Machine
end

