-- ==== Sys2Proof/Machine/Driver.lean ====
section
/-! DEFINITION. The host as an agent (R240, R250, R251): any sequence of its operations, and its run loop. -/

namespace Sys2Proof.Machine

/-- The operations of R240 that write state. The others are observations (`isRunning`, `snapshot`, the dumps). -/
inductive HostOp where
  | load (bs : List Byte)
  | attachInterrupt (n : Byte) (h : Handler)
  | start
  | halt
  | step
deriving DecidableEq, Repr

/-- One operation (R240): atomic, between steps. -/
def applyOp (op : HostOp) (s : State) : Result :=
  match op with
  | .load bs => s.load bs
  | .attachInterrupt n h => .next (s.attachInterrupt n h)
  | .start => .next s.start
  | .halt => .next s.halt
  | .step => Sys2Proof.Machine.step s

/-- The operations of a host one after the other (R251), stopping at the first fault or refusal. -/
def runOps : List HostOp → State → Result
  | [], s => .next s
  | op :: ops, s =>
    match applyOp op s with
    | .next s' => runOps ops s'
    | .fault f => .fault f
    | .refused r => .refused r

/-- The canonical driver `while is_running(): step()` (R250), under fuel (R119, R317). -/
def runLoop : Nat → State → Result
  | 0, s => .next s
  | n + 1, s =>
    if s.isRunning then
      match Sys2Proof.Machine.step s with
      | .next s' => runLoop n s'
      | .fault f => .fault f
      | .refused r => .refused r
    else .next s

end Sys2Proof.Machine
end

