-- ==== Sys2Proof/Safety.lean ====
section
/-! DEFINITION. The terms the claims are stated in: the invariant, frames, what lies at `pc`, and what counts as a
host that keeps its duties. -/

namespace Sys2Proof.Machine

/-- The invariant: the memory is in its canonical form, cells 0 to len - 1, and no longer than `MEM_MAX` (R20, R53). -/
abbrev State.Inv (s : State) : Prop := s.mem.wf = true ∧ s.mem.length ≤ memMax

/-- The bytes `bs` lie in the memory from offset `a` on. -/
abbrev Memory.Holds (m : Memory) (a : Nat) (bs : List Byte) : Prop :=
  ∀ j, j < bs.length → m.read? (a + j) = bs[j]?

/-- The memory reads the same at every offset and has the same length. -/
def SameMemory (s t : State) : Prop :=
  t.mem.length = s.mem.length ∧ ∀ a, t.mem.read? a = s.mem.read? a

/-- From `s` to `t` nothing changed but register `d` and the reported signal. -/
def WritesOnlyReg (d : Fin 16) (s t : State) : Prop :=
  (∀ i, i ≠ d → t.readReg i = s.readReg i) ∧ t.pc = s.pc ∧ t.status = s.status ∧ t.cs = s.cs ∧
    (∀ n, t.lookupHandler n = s.lookupHandler n) ∧ SameMemory s t ∧ t.handlerCalls = s.handlerCalls

/-- The bytes `bytes` are fetched as the instruction `i`: a running core whose memory holds them at `pc` runs `i`
with `pc` just past them (R116), and one whose memory ends inside them reports `ProgramExhausted`, with `pc` at the
end of the memory and nothing else written (R114; that end is the spec's decision D9, log entry 12). -/
def FetchesAs (i : Instr) (bytes : List Byte) : Prop :=
  (∀ s : State, s.Inv → s.status = true → s.mem.Holds s.pc.toNat bytes →
    step s = exec i { s with pc := s.pc + BitVec.ofNat 64 bytes.length }) ∧
  (∀ (s : State) (n : Nat), s.Inv → s.status = true → 0 < n → n < bytes.length →
    s.mem.Holds s.pc.toNat (bytes.take n) → s.mem.length = s.pc.toNat + n →
    step s = .next { s with pc := BitVec.ofNat 64 s.mem.length, status := false, signal := .programExhausted })

/-- The unsigned little-endian number of a byte list, as the sum R11 writes: byte `j` weighs `256^j`. -/
def littleEndianSum (bs : List Byte) : Nat :=
  ((List.range bs.length).map fun j => (bs.getD j 0).toNat * 256 ^ j).sum

/-- The rule of LOADkB (R130), for the constructor `mk` of width `k`: encoding, loaded value read unsigned and
signed, frame, and `RegisterFault`. -/
def LoadsImmediate (k : Nat) (mk : Byte → BitVec (8 * k) → Instr) : Prop :=
  (∀ (reg : Byte) (bs : List Byte), bs.length = k →
    ∃ imm : BitVec (8 * k), imm.toNat = littleEndianSum bs ∧
      FetchesAs (mk reg imm) (BitVec.ofNat 8 k :: reg :: bs)) ∧
  (∀ (s : State) (reg : Byte) (imm : BitVec (8 * k)) (h : reg.toNat < 16),
    ∃ t, exec (mk reg imm) s = .next t ∧ (t.readReg ⟨reg.toNat, h⟩).toNat = imm.toNat ∧
      (t.readReg ⟨reg.toNat, h⟩).toInt =
        (if imm.toNat < 2 ^ 63 then (imm.toNat : Int) else (imm.toNat : Int) - 2 ^ 64) ∧
      t.signal = .normal ∧ WritesOnlyReg ⟨reg.toNat, h⟩ s t) ∧
  (∀ (s : State) (reg : Byte) (imm : BitVec (8 * k)), 16 ≤ reg.toNat →
    exec (mk reg imm) s = .next { s with status := false, signal := .registerFault })

/-- The rule of a three-register instruction (R150, R152) that never faults on its values: with `z` the exact result
`f a b`, the destination holds `z` and the signal is `Normal` when `z` fits, else the destination is congruent to
`z` modulo 2^64 and the signal is `Overflowed`. -/
def WrapsExactResult (op : Byte) (mk : Byte → Byte → Byte → Instr) (f : Int → Int → Int) : Prop :=
  (∀ a b d : Byte, FetchesAs (mk a b d) [op, a, b, d]) ∧
  (∀ (s : State) (a b d : Byte) (ha : a.toNat < 16) (hb : b.toNat < 16) (hd : d.toNat < 16) (z : Int),
    z = f (s.readReg ⟨a.toNat, ha⟩).toInt (s.readReg ⟨b.toNat, hb⟩).toInt →
    ∃ t, exec (mk a b d) s = .next t ∧
      (if -2 ^ 63 ≤ z ∧ z < 2 ^ 63 then
        (t.readReg ⟨d.toNat, hd⟩).toInt = z ∧ t.signal = .normal
      else
        (2 ^ 64 : Int) ∣ (t.readReg ⟨d.toNat, hd⟩).toInt - z ∧ t.signal = .overflowed) ∧
      WritesOnlyReg ⟨d.toNat, hd⟩ s t) ∧
  (∀ (s : State) (a b d : Byte), 16 ≤ a.toNat ∨ 16 ≤ b.toNat ∨ 16 ≤ d.toNat →
    exec (mk a b d) s = .next { s with status := false, signal := .registerFault })

/-- The rule of AND, OR, XOR (R170), bit by bit with the truth function `f`. -/
def CombinesBits (op : Byte) (mk : Byte → Byte → Instr) (f : Bool → Bool → Bool) : Prop :=
  (∀ d r : Byte, FetchesAs (mk d r) [op, d, r]) ∧
  (∀ (s : State) (d r : Byte) (hd : d.toNat < 16) (hr : r.toNat < 16),
    ∃ t, exec (mk d r) s = .next t ∧
      (∀ j, j < 64 → (t.readReg ⟨d.toNat, hd⟩).getLsbD j =
        f ((s.readReg ⟨d.toNat, hd⟩).getLsbD j) ((s.readReg ⟨r.toNat, hr⟩).getLsbD j)) ∧
      t.signal = .normal ∧ WritesOnlyReg ⟨d.toNat, hd⟩ s t) ∧
  (∀ (s : State) (d r : Byte), 16 ≤ d.toNat ∨ 16 ≤ r.toNat →
    exec (mk d r) s = .next { s with status := false, signal := .registerFault })

/-- The register operand an instruction writes (R23). -/
def writtenReg? : Instr → Option Byte
  | .nop => none
  | .load1b r _ => some r
  | .load2b r _ => some r
  | .load3b r _ => some r
  | .load4b r _ => some r
  | .load5b r _ => some r
  | .load6b r _ => some r
  | .load7b r _ => some r
  | .load8b r _ => some r
  | .add _ _ d => some d
  | .sub _ _ d => some d
  | .mul _ _ d => some d
  | .div _ _ d => some d
  | .not r => some r
  | .and d _ => some d
  | .or d _ => some d
  | .xor d _ => some d
  | .call _ => none
  | .ret => none
  | .endProgram => none
  | .cpuid => none
  | .int _ => none
  | .badop _ => none

/-- Whether an instruction is INT, the only one that runs host software (R281). -/
def isInt : Instr → Bool
  | .nop => false
  | .load1b _ _ => false
  | .load2b _ _ => false
  | .load3b _ _ => false
  | .load4b _ _ => false
  | .load5b _ _ => false
  | .load6b _ _ => false
  | .load7b _ _ => false
  | .load8b _ _ => false
  | .add _ _ _ => false
  | .sub _ _ _ => false
  | .mul _ _ _ => false
  | .div _ _ _ => false
  | .not _ => false
  | .and _ _ => false
  | .or _ _ => false
  | .xor _ _ => false
  | .call _ => false
  | .ret => false
  | .endProgram => false
  | .cpuid => false
  | .int _ => true
  | .badop _ => false

/-- Whether an instruction is CALL or RET, the only ones besides INT that write `pc` or `cs` (R27, R34). -/
def isCallOrRet : Instr → Bool
  | .nop => false
  | .load1b _ _ => false
  | .load2b _ _ => false
  | .load3b _ _ => false
  | .load4b _ _ => false
  | .load5b _ _ => false
  | .load6b _ _ => false
  | .load7b _ _ => false
  | .load8b _ _ => false
  | .add _ _ _ => false
  | .sub _ _ _ => false
  | .mul _ _ _ => false
  | .div _ _ _ => false
  | .not _ => false
  | .and _ _ => false
  | .or _ _ => false
  | .xor _ _ => false
  | .call _ => true
  | .ret => true
  | .endProgram => false
  | .cpuid => false
  | .int _ => false
  | .badop _ => false

/-- The host vouches for every registered handler (R224, R256). -/
def State.HandlersDutiful (s : State) : Prop :=
  ∀ n h, s.lookupHandler n = some h → h.dutiful = true

/-- The state `t` is what the handler's result `r` says, with `Normal` reported and one more call counted (R226). -/
def LeftByHandler (r : Returned) (s t : State) : Prop :=
  t.mem.bytes = r.mem ∧ t.mem.wf = true ∧ t.pc = r.pc ∧ t.status = r.status ∧ t.regs = r.regs ∧ t.cs = r.cs ∧
    t.it = r.it ∧ t.signal = .normal ∧ t.handlerCalls = s.handlerCalls + 1

/-- CALLs executed one after the other: each pair is the CALL's own offset and its target. `pc` is at the offset
plus 9 when it executes (R116); where the program goes in between does not matter to the call stack. -/
def callChain : List (Word × Word) → State → Result
  | [], s => .next s
  | (offset, target) :: calls, s =>
    match exec (.call target) (s.setPc (offset + 9)) with
    | .next t => callChain calls t
    | .fault f => .fault f
    | .refused r => .refused r

/-- `n` RETs executed one after the other: the offsets they resumed at and the state after the last. -/
def retChain : Nat → State → Option (List Word × State)
  | 0, s => some ([], s)
  | n + 1, s =>
    match exec .ret s with
    | .next t => (retChain n t).map fun p => (t.pc :: p.1, p.2)
    | .fault _ => none
    | .refused _ => none

end Sys2Proof.Machine
end

