-- ==== Sys2Proof/Certificates/Slice0/Obligations.lean ====
section
/-! DEFINITION. The statements for the provers, from the numbered rules of spec/. A docstring names the rule, or, where
a statement rests on a decision or an inference, the decision and the log entry. -/

open Sys2Proof Sys2Proof.Machine

/-! ### Encoding -/

/-- 30_encoding.md sections 1 to 3: no bit of an encoding is dropped. -/
def Obligations.DecodeInvertsEncode : Prop :=
  ∀ (i : Instr) (rest : List Byte), i.wellFormed = true → decode (encode i ++ rest) = .ok (i, rest)

/-- 30_encoding.md sections 1 to 3: each byte string has one meaning, and what decodes is well-formed. -/
def Obligations.EncodeInvertsDecode : Prop :=
  ∀ (bs : List Byte) (i : Instr) (rest : List Byte), decode bs = .ok (i, rest) →
    i.wellFormed = true ∧ bs = encode i ++ rest

/-- 30_encoding.md section 6 (R96): decoding is total over the opcode byte and depends on nothing else; opcode 20 is
CPUID, 22 to 255 are the default arm; the only failure is missing operand bytes. -/
def Obligations.DecodeTotalOverOpcodes : Prop :=
  ∀ (op : Byte) (tail : List Byte),
    (tail.length < operandCount op ∧ decode (op :: tail) = .error .truncated) ∨
    (operandCount op ≤ tail.length ∧ ∃ i, decode (op :: tail) = .ok (i, tail.drop (operandCount op)) ∧
      i.opcode = op ∧ (op = 0x14 → i = .cpuid) ∧ (22 ≤ op.toNat → i = .badop op) ∧ (op.toNat < 22 → i ≠ .badop op))

/-- The lengths of R84; that of opcodes 20 and 22 to 255 is the spec's own choice D2 (log entry 8). -/
def Obligations.InstructionLengthByOpcode : Prop :=
  ∀ (op : Byte) (tail : List Byte) (i : Instr) (rest : List Byte), decode (op :: tail) = .ok (i, rest) →
    (op :: tail).length = rest.length +
      (if op = 0 then 1 else if op ≤ 8 then 2 + op.toNat else if op ≤ 12 then 4 else if op = 13 then 2
       else if op ≤ 16 then 3 else if op = 17 then 9 else if op ≤ 19 then 1 else if op = 20 then 1
       else if op = 21 then 2 else 1)

/-- A few instructions of the spec's own examples, written out from R82 and R90. -/
def Obligations.SampleWordsDecode : Prop :=
  decode [0x02, 0x00, 0xF4, 0x01] = .ok (.load2b 0 500, []) ∧
  decode [0x09, 0x00, 0x01, 0x02] = .ok (.add 0 1 2, []) ∧
  decode [0x0D, 0x04] = .ok (.not 4, []) ∧
  decode [0x10, 0x00, 0x01, 0x13] = .ok (.xor 0 1, [0x13]) ∧
  decode [0x11, 0x0E, 0, 0, 0, 0, 0, 0, 0] = .ok (.call 14, []) ∧
  decode [0x15, 0x10] = .ok (.int 16, []) ∧
  decode [0xFF, 0x13] = .ok (.badop 0xFF, [0x13])

/-- The table of R94 (the spec's own syntax, D21, log entry 22): the bytes a line emits decode to the instruction it names. -/
def Obligations.AssembledLinesDecode : Prop :=
  ∀ (l : AsmLine) (bs : List Byte) (i : Instr) (rest : List Byte),
    l.bytes? = some bs → l.instr? = some i → decode (bs ++ rest) = .ok (i, rest)

/-! ### The step -/

/-- R110, R113, R116: a step at a running state runs the instruction its bytes at `pc` decode to, with `pc` just past
it. What `step` adds around `exec` is exactly this move of `pc`. -/
def Obligations.StepRunsDecodedInstruction : Prop :=
  ∀ (s : State) (bs : List Byte) (i : Instr) (rest : List Byte),
    s.status = true → decode bs = .ok (i, rest) → s.mem.Holds s.pc.toNat bs → s.pc.toNat + bs.length < 2 ^ 64 →
    i.wellFormed = true ∧ step s = exec i { s with pc := s.pc + BitVec.ofNat 64 (encode i).length }

/-- R111 with the decision D11 (log entry 13): a step while halted changes nothing and reports `NotRunning`. -/
def Obligations.HaltedStepChangesNothing : Prop :=
  ∀ s : State, s.status = false → step s = .next { s with signal := .notRunning }

/-- R112. -/
def Obligations.EndOfProgramAtOpcodeFetch : Prop :=
  ∀ s : State, s.Inv → s.status = true → s.mem.length ≤ s.pc.toNat →
    step s = .next { s with status := false, signal := .programExhausted }

/-- 40_step_and_nop.md section 1 with the decisions D8 and D9 (log entry 12): the memory ends inside an instruction. -/
def Obligations.TruncatedInstructionExhausts : Prop :=
  ∀ (s : State) (op : Byte), s.Inv → s.status = true → s.mem.read? s.pc.toNat = some op →
    s.mem.length < s.pc.toNat + opLength op →
    step s = .next { s with pc := BitVec.ofNat 64 s.mem.length, status := false, signal := .programExhausted }

/-- 10_state.md section 3 (derived there from R26): fetching never moves `pc` back, never past the end of the memory,
and so never wraps. -/
def Obligations.FetchStaysInsideMemory : Prop :=
  ∀ s : State, s.Inv → s.pc.toNat ≤ s.mem.length →
    ∃ w : Word, (fetchInstr s = .exhausted (s.setPc w) ∨ ∃ i, fetchInstr s = .instr i (s.setPc w)) ∧
      s.pc.toNat ≤ w.toNat ∧ w.toNat ≤ s.mem.length

/-! ### NOP, CPUID, invalid opcodes, END -/

/-- NOP: the spec derives from the name that it does nothing (40_step_and_nop.md section 2). -/
def Obligations.NopOnlyAdvances : Prop :=
  FetchesAs .nop [0x00] ∧ ∀ s, exec .nop s = .next { s with signal := .normal }

/-- R121. That one byte is consumed and `status` stays is the spec's own choice D2 and D3 (log entry 8). -/
def Obligations.CpuidActsAsBadOpcode : Prop :=
  FetchesAs .cpuid [0x14] ∧ ∀ s, exec .cpuid s = .next { s with signal := .badOpcode }

/-- 40_step_and_nop.md section 3 with the skip policy D2 (log entry 8). -/
def Obligations.InvalidOpcodeIsSkipped : Prop :=
  ∀ op : Byte, 22 ≤ op.toNat →
    FetchesAs (.badop op) [op] ∧ ∀ s, exec (.badop op) s = .next { s with signal := .badOpcode }

/-- R210. -/
def Obligations.EndHalts : Prop :=
  FetchesAs .endProgram [0x13] ∧
    ∀ s, exec .endProgram s = .next { s with status := false, signal := .normalTermination }

/-! ### LOAD -/

/-- R130 to R138, all eight widths. What a memory that ends inside the instruction leaves (R114) is the spec's decision
D9 (log entry 12). -/
def Obligations.LoadImmediateFamily : Prop :=
  LoadsImmediate 1 .load1b ∧ LoadsImmediate 2 .load2b ∧ LoadsImmediate 3 .load3b ∧ LoadsImmediate 4 .load4b ∧
  LoadsImmediate 5 .load5b ∧ LoadsImmediate 6 .load6b ∧ LoadsImmediate 7 .load7b ∧ LoadsImmediate 8 .load8b

/-! ### Arithmetic -/

/-- ADD (42_arithmetic.md section 2) with the wrap policy D4 (log entry 9). -/
def Obligations.AddWrapsExactSum : Prop := WrapsExactResult 0x09 .add (fun a b => a + b)

/-- SUB (42_arithmetic.md section 2) with D4 (log entry 9) and the operand order D7 (log entry 11). -/
def Obligations.SubWrapsExactDifference : Prop := WrapsExactResult 0x0A .sub (fun a b => a - b)

/-- MUL (42_arithmetic.md section 2) with D4 (log entry 9). -/
def Obligations.MulWrapsExactProduct : Prop := WrapsExactResult 0x0B .mul (fun a b => a * b)

/-- DIV (42_arithmetic.md section 2) by a divisor other than 0, with the rounding D5, the case `INT64_MIN / -1` D6
(log entry 10) and the operand order D7 (log entry 11): the quotient `q` satisfies `a = q*b + r` with `|r| < |b|`
and `r` zero or of the sign of `a`. -/
def Obligations.DivRoundsTowardZero : Prop :=
  (∀ a b d : Byte, FetchesAs (.div a b d) [0x0C, a, b, d]) ∧
  (∀ (s : State) (a b d : Byte) (ha : a.toNat < 16) (hb : b.toNat < 16) (hd : d.toNat < 16) (x y : Int),
    x = (s.readReg ⟨a.toNat, ha⟩).toInt → y = (s.readReg ⟨b.toNat, hb⟩).toInt → y ≠ 0 →
    ∃ t, exec (.div a b d) s = .next t ∧
      (if x = -2 ^ 63 ∧ y = -1 then
        (t.readReg ⟨d.toNat, hd⟩).toInt = -2 ^ 63 ∧ t.signal = .overflowed
      else t.signal = .normal ∧ ∃ r : Int, x = (t.readReg ⟨d.toNat, hd⟩).toInt * y + r ∧ r.natAbs < y.natAbs ∧
        (r = 0 ∨ (0 < r ∧ 0 < x) ∨ (r < 0 ∧ x < 0))) ∧
      WritesOnlyReg ⟨d.toNat, hd⟩ s t) ∧
  (∀ (s : State) (a b d : Byte), 16 ≤ a.toNat ∨ 16 ≤ b.toNat ∨ 16 ≤ d.toNat →
    exec (.div a b d) s = .next { s with status := false, signal := .registerFault })

/-- R275: whatever the dividend, 0 / 0 included; the destination is not written. -/
def Obligations.DivByZeroFaults : Prop :=
  ∀ (s : State) (a b d : Byte) (hb : b.toNat < 16), a.toNat < 16 → d.toNat < 16 →
    (s.readReg ⟨b.toNat, hb⟩).toInt = 0 →
    exec (.div a b d) s = .next { s with status := false, signal := .divisionFault }

/-- R158: the value written and the signal depend on the two source registers only, and nothing but the destination,
the signal and, on a fatal fault, `status` is written. With an operand byte that names no register, nothing is read. -/
def Obligations.ArithmeticIsPure : Prop :=
  ∀ (mk : Byte → Byte → Byte → Instr), mk ∈ [Instr.add, Instr.sub, Instr.mul, Instr.div] →
  (∀ (s s' : State) (a b d : Byte) (ha : a.toNat < 16) (hb : b.toNat < 16) (hd : d.toNat < 16),
    s.readReg ⟨a.toNat, ha⟩ = s'.readReg ⟨a.toNat, ha⟩ → s.readReg ⟨b.toNat, hb⟩ = s'.readReg ⟨b.toNat, hb⟩ →
    ∃ t t', exec (mk a b d) s = .next t ∧ exec (mk a b d) s' = .next t' ∧ t.signal = t'.signal ∧
      (if t.signal = .divisionFault then
        t = { s with status := false, signal := .divisionFault }
      else
        t.readReg ⟨d.toNat, hd⟩ = t'.readReg ⟨d.toNat, hd⟩ ∧ WritesOnlyReg ⟨d.toNat, hd⟩ s t)) ∧
  (∀ (s : State) (a b d : Byte), 16 ≤ a.toNat ∨ 16 ≤ b.toNat ∨ 16 ≤ d.toNat →
    exec (mk a b d) s = .next { s with status := false, signal := .registerFault })

/-! ### Bitwise -/

/-- R171. What a memory that ends inside the instruction leaves (R114) is the spec's decision D9 (log entry 12). -/
def Obligations.NotInvertsInPlace : Prop :=
  (∀ r : Byte, FetchesAs (.not r) [0x0D, r]) ∧
  (∀ (s : State) (r : Byte) (hr : r.toNat < 16),
    ∃ t, exec (.not r) s = .next t ∧
      (∀ j, j < 64 → (t.readReg ⟨r.toNat, hr⟩).getLsbD j = !(s.readReg ⟨r.toNat, hr⟩).getLsbD j) ∧
      (t.readReg ⟨r.toNat, hr⟩).toInt = -(s.readReg ⟨r.toNat, hr⟩).toInt - 1 ∧
      t.signal = .normal ∧ WritesOnlyReg ⟨r.toNat, hr⟩ s t) ∧
  (∀ (s : State) (r : Byte), 16 ≤ r.toNat →
    exec (.not r) s = .next { s with status := false, signal := .registerFault })

/-- R172. What a memory that ends inside the instruction leaves (R114) is the spec's decision D9 (log entry 12). -/
def Obligations.AndCombinesBits : Prop := CombinesBits 0x0E .and (fun a b => a && b)

/-- R173. What a memory that ends inside the instruction leaves (R114) is the spec's decision D9 (log entry 12). -/
def Obligations.OrCombinesBits : Prop := CombinesBits 0x0F .or (fun a b => a || b)

/-- R174. What a memory that ends inside the instruction leaves (R114) is the spec's decision D9 (log entry 12). -/
def Obligations.XorCombinesBits : Prop := CombinesBits 0x10 .xor (fun a b => a ^^ b)

/-- 42_arithmetic.md R151 and 43_bitwise.md R175, both derived in the spec: what the instructions do when operands
coincide, and the register-copy and negation idioms. The copy and the negation need two steps. -/
def Obligations.RegisterIdioms : Prop :=
  ∀ (s : State) (d r : Byte) (hd : d.toNat < 16) (hr : r.toNat < 16),
    (∃ t, exec (.xor d d) s = .next t ∧ t.readReg ⟨d.toNat, hd⟩ = 0) ∧
    (∃ t, exec (.sub r r d) s = .next t ∧ t.readReg ⟨d.toNat, hd⟩ = 0 ∧ t.signal = .normal) ∧
    (∃ t, exec (.and d d) s = .next t ∧ t.readReg ⟨d.toNat, hd⟩ = s.readReg ⟨d.toNat, hd⟩) ∧
    (∃ t u, exec (.not d) s = .next t ∧ exec (.not d) t = .next u ∧
      u.readReg ⟨d.toNat, hd⟩ = s.readReg ⟨d.toNat, hd⟩) ∧
    (d ≠ r → ∃ t u, exec (.xor d d) s = .next t ∧ exec (.or d r) t = .next u ∧
      u.readReg ⟨d.toNat, hd⟩ = s.readReg ⟨r.toNat, hr⟩ ∧ u.readReg ⟨r.toNat, hr⟩ = s.readReg ⟨r.toNat, hr⟩) ∧
    (d ≠ r → ∃ t u, exec (.xor d d) s = .next t ∧ exec (.sub d r d) t = .next u ∧
      u.readReg ⟨d.toNat, hd⟩ = -s.readReg ⟨r.toNat, hr⟩ ∧
      (u.signal = .overflowed ↔ (s.readReg ⟨r.toNat, hr⟩).toInt = -2 ^ 63))

/-- R115, R274: any register operand byte of 16 or more, in any instruction that has one, whatever the registers hold
(so before the divisor check of DIV). -/
def Obligations.OutOfRangeRegisterFaults : Prop :=
  ∀ (i : Instr) (b : Byte) (s : State), b ∈ i.regOperands → 16 ≤ b.toNat →
    exec i s = .next { s with status := false, signal := .registerFault }

/-! ### Control transfer -/

/-- R191: the address is little-endian, the next-instruction offset is pushed. That `address` is not validated is D20
(log entry 19); what a memory that ends inside the instruction leaves (R114) is D9 (log entry 12). -/
def Obligations.CallPushesAndJumps : Prop :=
  (∀ bs : List Byte, bs.length = 8 → ∃ address : Word, address.toNat = littleEndianSum bs ∧
    FetchesAs (.call address) (0x11 :: bs)) ∧
  (∀ (s : State) (address : Word),
    exec (.call address) s = .next { s with pc := address, cs := s.cs ++ [s.pc], signal := .normal })

/-- R193. -/
def Obligations.RetPopsOrUnderflows : Prop :=
  FetchesAs .ret [0x12] ∧
  (∀ (s : State) (cs : List Word) (t : Word), s.cs = cs ++ [t] →
    exec .ret s = .next { s with pc := t, cs := cs, signal := .normal }) ∧
  (∀ s : State, s.cs = [] → exec .ret s = .next { s with status := false, signal := .callStackUnderflow })

/-- R194: N CALLs at offsets c1 to cN, then N RETs. -/
def Obligations.NestedCallsRoundTrip : Prop :=
  ∀ (s : State) (calls : List (Word × Word)),
    ∃ t u, callChain calls s = .next t ∧ t.cs = s.cs ++ calls.map (fun c => c.1 + 9) ∧
      retChain calls.length t = some ((calls.map (fun c => c.1 + 9)).reverse, u) ∧
      u.cs = s.cs ∧ u.regs = s.regs ∧ u.status = s.status

/-! ### INT -/

/-- R221 and R228. What a memory that ends after the opcode byte gives is the spec's decision D9 (log entry 12). -/
def Obligations.UnregisteredInterruptFaults : Prop :=
  (∀ n : Byte, FetchesAs (.int n) [0x15, n]) ∧
  (∀ (s : State) (n : Byte), s.lookupHandler n = none →
    exec (.int n) s = .next { s with status := false, signal := .unhandledInterrupt })

/-- 46_interrupt.md R221 to R226 with the decision D15 (log entries 3 and 4): a registered handler the host vouches for
runs once, on the whole state, written out here item by item, with `pc` past the INT (R220, R222, R223); the state
after is what it left; `Normal` is reported. -/
def Obligations.HandledInterruptRunsHandler : Prop :=
  ∀ (s : State) (n : Byte) (h : Handler), s.lookupHandler n = some h → h.dutiful = true →
    ∃ t, exec (.int n) s = .next t ∧
      LeftByHandler
        (Config.handlerResult h n s.handlerCalls
          { mem := s.mem.bytes, pc := s.pc, status := s.status, regs := s.regs, cs := s.cs, it := s.it }) s t

/-- 46_interrupt.md R224 with the decision D15 and 93_implementation_defined.md U18, U19 (log entry 4): a handler the
host does not vouch for may instead hang the step or call `step()`, which has no meaning. It too is given the whole
state, written out here as `lent` (R220, R222, R223). -/
def Obligations.UnvouchedHandlerOutcomes : Prop :=
  ∀ (s : State) (n : Byte) (h : Handler) (lent : Borrow), s.lookupHandler n = some h → h.dutiful = false →
    lent = { mem := s.mem.bytes, pc := s.pc, status := s.status, regs := s.regs, cs := s.cs, it := s.it } →
    match Config.handlerConduct h n s.handlerCalls lent with
    | .returns => ∃ t, exec (.int n) s = .next t ∧
        LeftByHandler (Config.handlerResult h n s.handlerCalls lent) s t
    | .neverReturns => exec (.int n) s = .fault .handlerNeverReturns
    | .callsStep => exec (.int n) s = .refused .nestedStep

/-! ### The whole machine -/

/-- 10_state.md R20 and 20_memory.md R53 (MEM_MAX is D14, log entry 15): every step keeps the memory canonical, cells
0 to len - 1, and within MEM_MAX, whatever a handler does to it. -/
def Obligations.StepKeepsInvariant : Prop := ∀ s t : State, s.Inv → step s = .next t → t.Inv

/-- A newly constructed core meets the invariant. -/
def Obligations.ResetMeetsInvariant : Prop := State.reset.Inv ∧ State.reset.HandlersDutiful

/-- 47_host_interface.md R240, R251: so does every state any sequence of host operations can reach from a state that
meets it, in particular from construction. -/
def Obligations.HostOperationsKeepInvariant : Prop :=
  ∀ (ops : List HostOp) (s t : State), s.Inv → runOps ops s = .next t → t.Inv

/-- 60_exceptions.md R280, R271: with handlers the host vouches for, every step has a next state; nothing ever
aborts. The vouching is the premise of D15 (log entry 4). -/
def Obligations.StepAlwaysCompletes : Prop :=
  ∀ s : State, s.HandlersDutiful → ∃ t, step s = .next t

/-- 45_halt.md R211 (derived there) and the status column of R270: the signals after which a running core is halted,
and the one other way, a handler that cleared `status`. -/
def Obligations.WaysARunEnds : Prop :=
  ∀ s t : State, s.status = true → step s = .next t →
    (t.signal ∈ [Signal.normalTermination, .programExhausted, .registerFault, .divisionFault, .callStackUnderflow,
      .unhandledInterrupt] → t.status = false) ∧
    (t.signal ∈ [Signal.overflowed, .badOpcode] → t.status = true) ∧
    (t.signal = .normal → t.handlerCalls = s.handlerCalls → t.status = true) ∧
    t.signal ≠ .notRunning

/-- 60_exceptions.md R293 (derived there): a halted core is set running by `start()` only. -/
def Obligations.OnlyStartSetsRunning : Prop :=
  ∀ (op : HostOp) (s t : State), s.status = false → applyOp op s = .next t →
    (t.status = true ↔ op = .start)

/-- R23, R27, R34, R59 together (their frame): an instruction other than INT leaves the memory, the interrupt table and
the handler count alone, writes at most its destination register, and leaves `pc` and `cs` alone unless it is CALL
or RET. -/
def Obligations.EveryInstructionFrame : Prop :=
  ∀ (i : Instr) (s t : State), isInt i = false → exec i s = .next t →
    SameMemory s t ∧ (∀ n, t.lookupHandler n = s.lookupHandler n) ∧ t.handlerCalls = s.handlerCalls ∧
    (∀ r : Fin 16, writtenReg? i ≠ some (regByte r) → t.readReg r = s.readReg r) ∧
    (isCallOrRet i = false → t.pc = s.pc ∧ t.cs = s.cs)

/-- R59 and 60_exceptions.md R288 at the level of the step: unless the step ran a handler, it wrote neither the memory
nor the interrupt table. -/
def Obligations.StepWritesNoMemory : Prop :=
  ∀ s t : State, step s = .next t → t.handlerCalls = s.handlerCalls →
    SameMemory s t ∧ ∀ n, t.lookupHandler n = s.lookupHandler n

/-- 40_step_and_nop.md R117 and 60_exceptions.md R285 with the decision D8 (log entry 12): a fatal fault changes nothing
but `status`, and `pc` by the fetch. -/
def Obligations.FatalFaultsChangeOnlyStatus : Prop :=
  ∀ (i : Instr) (s t : State), exec i s = .next t → t.signal.isFatal = true →
    t = { s with status := false, signal := t.signal }

/-! ### Reset and the host interface -/

/-- 47_host_interface.md R241 and 70_reset_and_hazards.md R310: the registers are 0 by the decision D12 (log entry 5),
`pc` is 0 by the spec's inference (log entry 6); `signal` and `handlerCalls` are the model's own and not stated. -/
def Obligations.ResetIsEmptyAndHalted : Prop :=
  State.reset.mem = [] ∧ State.reset.pc = 0 ∧ State.reset.status = false ∧
  (∀ i : Fin 16, State.reset.readReg i = 0) ∧ State.reset.cs = [] ∧ ∀ n : Byte, State.reset.lookupHandler n = none

/-- R242: the bytes land at the old end in order, no byte moves, nothing else changes. -/
def Obligations.LoadAppends : Prop :=
  ∀ (s : State) (bs : List Byte), s.Inv → s.mem.length + bs.length ≤ memMax →
    ∃ t, s.load bs = .next t ∧ t.mem.length = s.mem.length + bs.length ∧ t.mem.Holds s.mem.length bs ∧
      (∀ a, a < s.mem.length → t.mem.read? a = s.mem.read? a) ∧ t = { s with mem := t.mem } ∧ t.Inv

/-- 47_host_interface.md R243 with the decision D14 (log entry 15). -/
def Obligations.LoadBeyondCapacityRefused : Prop :=
  ∀ (s : State) (bs : List Byte), memMax < s.mem.length + bs.length → s.load bs = .refused .memoryFull

/-- R244: insert or overwrite one entry; nothing else changes. -/
def Obligations.AttachOverwritesOneEntry : Prop :=
  ∀ (s : State) (n : Byte) (h : Handler),
    (s.attachInterrupt n h).lookupHandler n = some h ∧
    (∀ m, m ≠ n → (s.attachInterrupt n h).lookupHandler m = s.lookupHandler m) ∧
    s.attachInterrupt n h = { s with it := (s.attachInterrupt n h).it }

/-- R246 to R248. The name `start` and its being unconditional are the spec's decisions D17 and D24 (log entry 20). -/
def Obligations.StartHaltAndIsRunning : Prop :=
  ∀ s : State, s.start = { s with status := true } ∧ s.halt = { s with status := false } ∧ s.isRunning = s.status

/-- R253 and R254: what the host sees. -/
def Obligations.SnapshotAndDumpsShowState : Prop :=
  ∀ s : State, s.Inv →
    s.snapshot.pc = s.pc ∧ s.snapshot.cs = s.cs ∧ (∀ i : Fin 16, s.snapshot.regs[i.val] = s.readReg i) ∧
    (∀ a, s.snapshot.mem[a]? = s.mem.read? a) ∧
    (∀ (i : Fin 16) (v : Int), (i, v) ∈ s.registerDump ↔ v ≠ 0 ∧ v = (s.readReg i).toInt) ∧
    (s.cs = [] → s.stackDump = []) ∧
    (∀ (cs : List Word) (t : Word), s.cs = cs ++ [t] → s.stackDump = t :: ({ s with cs := cs } : State).stackDump)

/-- 70_reset_and_hazards.md R313: the boot sequence runs the first instruction loaded, whichever it is. The start at
offset 0 is the spec's inference (log entry 6). -/
def Obligations.BootRunsFirstInstruction : Prop :=
  ∀ i : Instr, i.wellFormed = true →
    runOps [.load (encode i), .start, .step] State.reset =
      exec i { State.reset with
        mem := Memory.ofBytes (encode i), status := true, pc := BitVec.ofNat 64 (encode i).length }

/-- 47_host_interface.md R243 and R246, 70_reset_and_hazards.md R320 (derived there): after the program ran off the
end, bytes loaded then are executed as new instructions from the old end on. -/
def Obligations.ResumeAfterRunningOff : Prop :=
  ∀ (s : State) (bs : List Byte) (i : Instr) (rest : List Byte), s.Inv → s.status = true →
    s.pc.toNat = s.mem.length → s.mem.length + bs.length ≤ memMax → decode bs = .ok (i, rest) →
    runOps [.step, .load bs, .start, .step] s =
      exec i { s with
        mem := s.mem.append bs, signal := .programExhausted,
        pc := s.pc + BitVec.ofNat 64 (encode i).length }

/-- R270: the ten codes, the spec's own labels (D16, log entry 21). -/
def Obligations.SignalCodesAreTheTable : Prop :=
  [Signal.normal, .normalTermination, .programExhausted, .overflowed, .badOpcode, .registerFault, .divisionFault,
    .callStackUnderflow, .unhandledInterrupt, .notRunning].map Signal.code = List.range 10 ∧
  ∀ g h : Signal, g.code = h.code → g = h
end

