-- ==== Sys2Proof/Laws/Decode.lean ====
section
/-! SUPPORT. Little-endian numbers and their bytes, lengths, and what `decode` can answer. -/

namespace Sys2Proof

@[simp] theorem leBytes_length (k v : Nat) : (leBytes k v).length = k := by
  induction k generalizing v with
  | zero => rfl
  | succ k ih => simp [leBytes, ih]

/-- The value of the bytes of a number is the number, cut to their width (R11, R54). -/
theorem leNat_leBytes (k v : Nat) : leNat (leBytes k v) = v % 256 ^ k := by
  induction k generalizing v with
  | zero => simp [leBytes, leNat, Nat.mod_one]
  | succ k ih =>
    have split : v % 256 ^ (k + 1) = v % 256 + 256 * (v / 256 % 256 ^ k) := by rw [Nat.pow_succ', Nat.mod_mul]
    simpa only [leBytes, leNat, ih, BitVec.toNat_ofNat] using split.symm

theorem leNat_lt (bs : List Byte) : leNat bs < 256 ^ bs.length := by
  induction bs with
  | nil => simp [leNat]
  | cons b bs ih =>
    have := b.isLt
    simp only [leNat, List.length_cons, Nat.pow_succ]
    omega

/-- The bytes of the value of a byte list are the list. -/
theorem leBytes_leNat (bs : List Byte) : leBytes bs.length (leNat bs) = bs := by
  induction bs with
  | nil => rfl
  | cons b bs ih =>
    have hb := b.isLt
    simp only [List.length_cons, leBytes, leNat]
    congr 1
    · apply BitVec.eq_of_toNat_eq
      simp only [BitVec.toNat_ofNat]
      omega
    · rw [show (b.toNat + 256 * leNat bs) / 256 = leNat bs by omega]
      exact ih

/-- What `decode` answers with an instruction: the opcode byte is there, all its operand bytes follow, and the rest is
what comes after them. -/
theorem decode_ok {bs : List Byte} {i : Instr} {rest : List Byte} (h : decode bs = .ok (i, rest)) :
    ∃ op tail, bs = op :: tail ∧ operandCount op ≤ tail.length ∧
      i = assembleInstr op (tail.take (operandCount op)) ∧ rest = tail.drop (operandCount op) := by
  cases bs with
  | nil => cases h
  | cons op tail =>
    by_cases hl : tail.length < operandCount op
    · simp [decode, hl] at h
    · simp only [decode, hl, if_false, Except.ok.injEq, Prod.mk.injEq] at h
      exact ⟨op, tail, rfl, by omega, h.1.symm, h.2.symm⟩

/-- An opcode byte with enough bytes after it decodes (R96). -/
theorem decode_cons_of_le {op : Byte} {tail : List Byte} (h : operandCount op ≤ tail.length) :
    decode (op :: tail) = .ok (assembleInstr op (tail.take (operandCount op)), tail.drop (operandCount op)) := by
  simp [decode, Nat.not_lt.mpr h]

/-- An opcode byte with too few bytes after it does not decode (R114). -/
theorem decode_cons_of_lt {op : Byte} {tail : List Byte} (h : tail.length < operandCount op) :
    decode (op :: tail) = .error .truncated := by
  simp [decode, h]

theorem opLength_pos (op : Byte) : 0 < opLength op := by
  revert op; decide

/-- The longest instruction is 10 bytes (R84). -/
theorem opLength_le (op : Byte) : opLength op ≤ maxLength := by
  revert op; decide

end Sys2Proof
end

