-- ==== Sys2Proof/Laws/Memory.lean ====
section
/-! SUPPORT. Every memory operation keeps the canonical form, and reads see what was written. -/

namespace Sys2Proof.Machine

@[simp] theorem cellsFrom_length (n : Nat) (bs : List Byte) : (Memory.cellsFrom n bs).length = bs.length := by
  induction bs generalizing n with
  | nil => rfl
  | cons b bs ih => simp [Memory.cellsFrom, ih]

@[simp] theorem ofBytes_length (bs : List Byte) : (Memory.ofBytes bs).length = bs.length := cellsFrom_length 0 bs

@[simp] theorem bytes_length (m : Memory) : m.bytes.length = m.length := by simp [Memory.bytes]

theorem bytes_cellsFrom (n : Nat) (bs : List Byte) : Memory.bytes (Memory.cellsFrom n bs) = bs := by
  induction bs generalizing n with
  | nil => rfl
  | cons b bs ih => simpa [Memory.cellsFrom, Memory.bytes] using ih (n + 1)

@[simp] theorem bytes_ofBytes (bs : List Byte) : (Memory.ofBytes bs).bytes = bs := bytes_cellsFrom 0 bs

theorem wfFrom_cellsFrom (n : Nat) (bs : List Byte) : Memory.wfFrom n (Memory.cellsFrom n bs) = true := by
  induction bs generalizing n with
  | nil => rfl
  | cons b bs ih => simp [Memory.cellsFrom, Memory.wfFrom, ih]

/-- A memory made from a byte sequence is canonical. -/
@[simp] theorem wf_ofBytes (bs : List Byte) : (Memory.ofBytes bs).wf = true := wfFrom_cellsFrom 0 bs

theorem wfFrom_eq_cellsFrom (n : Nat) (m : Memory) (h : Memory.wfFrom n m = true) :
    m = Memory.cellsFrom n m.bytes := by
  induction m generalizing n with
  | nil => rfl
  | cons c m ih =>
    obtain ⟨k, b⟩ := c
    simp only [Memory.wfFrom, Bool.and_eq_true, decide_eq_true_eq] at h
    obtain ⟨rfl, hm⟩ := h
    simp only [Memory.bytes, List.map_cons, Memory.cellsFrom]
    exact congrArg _ (ih _ hm)

/-- A canonical memory is the one made from its bytes: equal memories are equal data. -/
theorem eq_ofBytes_of_wf {m : Memory} (h : m.wf = true) : m = Memory.ofBytes m.bytes := wfFrom_eq_cellsFrom 0 m h

theorem read?_cellsFrom (n : Nat) (bs : List Byte) (a : Nat) :
    Memory.read? (Memory.cellsFrom n bs) a = if a < n then none else bs[a - n]? := by
  induction bs generalizing n with
  | nil => simp [Memory.cellsFrom, Memory.read?]
  | cons b bs ih =>
    simp only [Memory.cellsFrom, Memory.read?, ih]
    by_cases hna : n = a
    · subst hna; simp
    · by_cases hlt : a < n
      · simp [hna, hlt, Nat.lt_succ_of_lt hlt]
      · have h1 : ¬ a < n + 1 := by omega
        have h2 : a - n = (a - (n + 1)) + 1 := by omega
        simp [hna, hlt, h1, h2]

@[simp] theorem read?_ofBytes (bs : List Byte) (a : Nat) : (Memory.ofBytes bs).read? a = bs[a]? := by
  simp [Memory.ofBytes, read?_cellsFrom]

/-- In canonical form the byte at an offset is the sequence's byte there. -/
theorem read?_of_wf {m : Memory} (h : m.wf = true) (a : Nat) : m.read? a = m.bytes[a]? := by
  conv_lhs => rw [eq_ofBytes_of_wf h]
  exact read?_ofBytes _ _

/-- In canonical form an offset has no byte iff it is at or past the end (R51). -/
theorem read?_eq_none_iff {m : Memory} (h : m.wf = true) (a : Nat) : m.read? a = none ↔ m.length ≤ a := by
  rw [read?_of_wf h, List.getElem?_eq_none_iff, bytes_length]

theorem wfFrom_append (n : Nat) (m : Memory) (bs : List Byte) (h : Memory.wfFrom n m = true) :
    Memory.wfFrom n (m ++ Memory.cellsFrom (n + m.length) bs) = true := by
  induction m generalizing n with
  | nil => simpa using wfFrom_cellsFrom n bs
  | cons c m ih =>
    simp only [Memory.wfFrom, Bool.and_eq_true, List.cons_append, List.length_cons] at h ⊢
    refine ⟨h.1, ?_⟩
    have := ih (n + 1) h.2
    rwa [show n + 1 + m.length = n + (m.length + 1) by omega] at this

/-- Appending keeps the canonical form (R242). -/
theorem wf_append {m : Memory} (h : m.wf = true) (bs : List Byte) : (m.append bs).wf = true := by
  have := wfFrom_append 0 m bs h
  simpa [Memory.append, Memory.wf] using this

@[simp] theorem append_length (m : Memory) (bs : List Byte) : (m.append bs).length = m.length + bs.length := by
  simp [Memory.append]

@[simp] theorem append_bytes (m : Memory) (bs : List Byte) : (m.append bs).bytes = m.bytes ++ bs := by
  have := bytes_cellsFrom m.length bs
  simp only [Memory.bytes] at this
  simp [Memory.append, Memory.bytes, this]

/-- Storing bytes gives a canonical memory, whatever it stored over. -/
@[simp] theorem wf_writeBytes (m : Memory) (a : Nat) (bs : List Byte) : (m.writeBytes a bs).wf = true :=
  wf_ofBytes _

/-- A stored byte reads back. -/
theorem read?_writeBytes (m : Memory) (a : Nat) (bs : List Byte) {j : Nat} (hj : j < bs.length) :
    (m.writeBytes a bs).read? (a + j) = bs[j]? := by
  have hlen : (m.bytes.take a ++ List.replicate (a - m.length) 0).length = a := by
    simp [Memory.bytes]; omega
  rw [Memory.writeBytes, read?_ofBytes, List.append_assoc, List.getElem?_append_right (by omega), hlen,
    List.getElem?_append_left (by omega)]
  simp

end Sys2Proof.Machine
end

