-- ==== Sys2Proof/Laws/State.lean ====
section
/-! SUPPORT. One lemma per field per update of the state, and the reads of a written register or table entry. -/

namespace Sys2Proof.Machine

section
variable (s : State) (i : Fin 16) (v w : Word) (g : Signal) (n : Byte) (h : Handler) (r : Returned)

@[simp] theorem writeReg_mem : (s.writeReg i v).mem = s.mem := rfl
@[simp] theorem writeReg_pc : (s.writeReg i v).pc = s.pc := rfl
@[simp] theorem writeReg_status : (s.writeReg i v).status = s.status := rfl
@[simp] theorem writeReg_cs : (s.writeReg i v).cs = s.cs := rfl
@[simp] theorem writeReg_it : (s.writeReg i v).it = s.it := rfl
@[simp] theorem writeReg_signal : (s.writeReg i v).signal = s.signal := rfl
@[simp] theorem writeReg_handlerCalls : (s.writeReg i v).handlerCalls = s.handlerCalls := rfl

@[simp] theorem setPc_mem : (s.setPc w).mem = s.mem := rfl
@[simp] theorem setPc_pc : (s.setPc w).pc = w := rfl
@[simp] theorem setPc_status : (s.setPc w).status = s.status := rfl
@[simp] theorem setPc_regs : (s.setPc w).regs = s.regs := rfl
@[simp] theorem setPc_cs : (s.setPc w).cs = s.cs := rfl
@[simp] theorem setPc_it : (s.setPc w).it = s.it := rfl
@[simp] theorem setPc_signal : (s.setPc w).signal = s.signal := rfl
@[simp] theorem setPc_handlerCalls : (s.setPc w).handlerCalls = s.handlerCalls := rfl

@[simp] theorem push_mem : (s.push w).mem = s.mem := rfl
@[simp] theorem push_pc : (s.push w).pc = s.pc := rfl
@[simp] theorem push_status : (s.push w).status = s.status := rfl
@[simp] theorem push_regs : (s.push w).regs = s.regs := rfl
@[simp] theorem push_cs : (s.push w).cs = s.cs ++ [w] := rfl
@[simp] theorem push_it : (s.push w).it = s.it := rfl
@[simp] theorem push_signal : (s.push w).signal = s.signal := rfl
@[simp] theorem push_handlerCalls : (s.push w).handlerCalls = s.handlerCalls := rfl

@[simp] theorem raise_mem : (s.raise g).mem = s.mem := rfl
@[simp] theorem raise_pc : (s.raise g).pc = s.pc := rfl
@[simp] theorem raise_status : (s.raise g).status = (s.status && !g.clearsStatus) := rfl
@[simp] theorem raise_regs : (s.raise g).regs = s.regs := rfl
@[simp] theorem raise_cs : (s.raise g).cs = s.cs := rfl
@[simp] theorem raise_it : (s.raise g).it = s.it := rfl
@[simp] theorem raise_signal : (s.raise g).signal = g := rfl
@[simp] theorem raise_handlerCalls : (s.raise g).handlerCalls = s.handlerCalls := rfl

@[simp] theorem setHandler_mem : (s.setHandler n h).mem = s.mem := rfl
@[simp] theorem setHandler_pc : (s.setHandler n h).pc = s.pc := rfl
@[simp] theorem setHandler_status : (s.setHandler n h).status = s.status := rfl
@[simp] theorem setHandler_regs : (s.setHandler n h).regs = s.regs := rfl
@[simp] theorem setHandler_cs : (s.setHandler n h).cs = s.cs := rfl
@[simp] theorem setHandler_signal : (s.setHandler n h).signal = s.signal := rfl
@[simp] theorem setHandler_handlerCalls : (s.setHandler n h).handlerCalls = s.handlerCalls := rfl

@[simp] theorem start_mem : s.start.mem = s.mem := rfl
@[simp] theorem start_pc : s.start.pc = s.pc := rfl
@[simp] theorem start_status : s.start.status = true := rfl
@[simp] theorem start_regs : s.start.regs = s.regs := rfl
@[simp] theorem start_cs : s.start.cs = s.cs := rfl
@[simp] theorem start_it : s.start.it = s.it := rfl
@[simp] theorem start_signal : s.start.signal = s.signal := rfl
@[simp] theorem start_handlerCalls : s.start.handlerCalls = s.handlerCalls := rfl

@[simp] theorem borrow_mem : s.borrow.mem = s.mem.bytes := rfl
@[simp] theorem borrow_pc : s.borrow.pc = s.pc := rfl
@[simp] theorem borrow_status : s.borrow.status = s.status := rfl
@[simp] theorem borrow_regs : s.borrow.regs = s.regs := rfl
@[simp] theorem borrow_cs : s.borrow.cs = s.cs := rfl
@[simp] theorem borrow_it : s.borrow.it = s.it := rfl

/-- What a handler is lent: the six items of R20 and nothing else (R220, R223). -/
theorem borrow_eq : s.borrow =
    { mem := s.mem.bytes, pc := s.pc, status := s.status, regs := s.regs, cs := s.cs, it := s.it } := rfl

@[simp] theorem giveBack_mem : (s.giveBack r).mem = Memory.ofBytes r.mem := rfl
@[simp] theorem giveBack_pc : (s.giveBack r).pc = r.pc := rfl
@[simp] theorem giveBack_status : (s.giveBack r).status = r.status := rfl
@[simp] theorem giveBack_regs : (s.giveBack r).regs = r.regs := rfl
@[simp] theorem giveBack_cs : (s.giveBack r).cs = r.cs := rfl
@[simp] theorem giveBack_it : (s.giveBack r).it = r.it := rfl
@[simp] theorem giveBack_signal : (s.giveBack r).signal = s.signal := rfl
@[simp] theorem giveBack_handlerCalls : (s.giveBack r).handlerCalls = s.handlerCalls + 1 := rfl

@[simp] theorem readReg_raise : (s.raise g).readReg i = s.readReg i := rfl
@[simp] theorem readReg_setPc : (s.setPc w).readReg i = s.readReg i := rfl
@[simp] theorem readReg_push : (s.push w).readReg i = s.readReg i := rfl
@[simp] theorem readReg_start : s.start.readReg i = s.readReg i := rfl
@[simp] theorem lookupHandler_raise : (s.raise g).lookupHandler n = s.lookupHandler n := rfl
@[simp] theorem lookupHandler_setPc : (s.setPc w).lookupHandler n = s.lookupHandler n := rfl
@[simp] theorem lookupHandler_push : (s.push w).lookupHandler n = s.lookupHandler n := rfl
@[simp] theorem lookupHandler_writeReg : (s.writeReg i v).lookupHandler n = s.lookupHandler n := rfl
@[simp] theorem lookupHandler_start : s.start.lookupHandler n = s.lookupHandler n := rfl

/-- Reading the register just written gives the value. -/
@[simp] theorem readReg_writeReg_self : (s.writeReg i v).readReg i = v := by
  simp [State.readReg, State.writeReg]

/-- Writing one register leaves the others alone (R10). -/
theorem readReg_writeReg_ne {i j : Fin 16} (hij : j ≠ i) : (s.writeReg i v).readReg j = s.readReg j := by
  have : i.val ≠ j.val := fun e => hij (Fin.ext e.symm)
  simp [State.readReg, State.writeReg, this]

/-- The entry just attached is the one looked up (R244). -/
@[simp] theorem lookupHandler_setHandler_self : (s.setHandler n h).lookupHandler n = some h := by
  simp [State.lookupHandler, State.setHandler]

/-- Attaching one entry leaves the others alone (R244). -/
theorem lookupHandler_setHandler_ne {n m : Byte} (hnm : m ≠ n) :
    (s.setHandler n h).lookupHandler m = s.lookupHandler m := by
  have : n.toNat ≠ m.toNat := fun e => hnm (BitVec.eq_of_toNat_eq e.symm)
  simp [State.lookupHandler, State.setHandler, this]

end

end Sys2Proof.Machine
end

