-- ==== Sys2Proof/Laws/Fetch.lean ====
section
/-! SUPPORT. What the fetch can do: it moves `pc` past the bytes it got, and changes nothing else. -/

namespace Sys2Proof.Machine

/-- `FetchByte()` (R12): it answers the byte at `pc` and adds 1 to `pc`. -/
theorem fetchByte_some {s s' : State} {b : Byte} (h : fetchByte s = some (b, s')) :
    s.mem.read? s.pc.toNat = some b ∧ s' = s.setPc (s.pc + 1) := by
  unfold fetchByte at h
  split at h
  · cases h
  · next heq => cases h; exact ⟨heq, rfl⟩

theorem fetchByte_none {s : State} (h : s.mem.read? s.pc.toNat = none) : fetchByte s = none := by
  simp [fetchByte, h]

theorem fetchByte_of_read? {s : State} {b : Byte} (h : s.mem.read? s.pc.toNat = some b) :
    fetchByte s = some (b, s.setPc (s.pc + 1)) := by
  simp [fetchByte, h]

/-- Several fetches: at most `n` bytes, `pc` past exactly the bytes got, nothing else changed. -/
theorem fetchBytes_state (n : Nat) (s : State) :
    (fetchBytes n s).1.length ≤ n ∧
      (fetchBytes n s).2 = s.setPc (s.pc + BitVec.ofNat 64 (fetchBytes n s).1.length) := by
  induction n generalizing s with
  | zero => simp [fetchBytes, State.setPc]
  | succ n ih =>
    cases hb : fetchByte s with
    | none => simp [fetchBytes, hb, State.setPc]
    | some p =>
      obtain ⟨b, s1⟩ := p
      obtain ⟨_, rfl⟩ := fetchByte_some hb
      obtain ⟨h1, h2⟩ := ih (s.setPc (s.pc + 1))
      simp only [fetchBytes, hb, List.length_cons]
      refine ⟨by omega, ?_⟩
      rw [h2]
      simp only [State.setPc]
      congr 1
      rw [BitVec.add_assoc, show (1 : Word) = BitVec.ofNat 64 1 from rfl, ← BitVec.ofNat_add, Nat.add_comm]

/-- When enough bytes lie at `pc`, the fetches answer them in order. -/
theorem fetchBytes_holds {n : Nat} {s : State} {bs : List Byte} (hlen : bs.length = n)
    (hpc : s.pc.toNat + n ≤ 2 ^ 64) (h : ∀ j, j < bs.length → s.mem.read? (s.pc.toNat + j) = bs[j]?) :
    (fetchBytes n s).1 = bs := by
  induction n generalizing s bs with
  | zero => simp [List.length_eq_zero_iff.mp hlen, fetchBytes]
  | succ n ih =>
    cases bs with
    | nil => cases hlen
    | cons b bs =>
      have h0 : s.mem.read? s.pc.toNat = some b := by simpa using h 0 (by simp)
      simp only [List.length_cons, Nat.add_right_cancel_iff] at hlen
      simp only [fetchBytes, fetchByte_of_read? h0]
      congr 1
      rcases Nat.eq_zero_or_pos n with rfl | hn
      · simp [List.length_eq_zero_iff.mp hlen, fetchBytes]
      · have hpc1 : (s.pc + 1).toNat = s.pc.toNat + 1 := by
          rw [BitVec.toNat_add, show (1 : Word).toNat = 1 from rfl, Nat.mod_eq_of_lt (by omega)]
        apply ih hlen
        · simp only [setPc_pc, hpc1]; omega
        · intro j hj
          have := h (j + 1) (by simpa using hj)
          simpa only [setPc_pc, setPc_mem, hpc1, List.getElem?_cons_succ, Nat.add_assoc, Nat.add_comm 1] using this

/-- When the memory ends after `bs`, the fetches answer `bs` and no more. -/
theorem fetchBytes_short {n : Nat} {s : State} {bs : List Byte} (hlen : bs.length < n)
    (hpc : s.pc.toNat + bs.length < 2 ^ 64) (h : ∀ j, j < bs.length → s.mem.read? (s.pc.toNat + j) = bs[j]?)
    (hend : s.mem.read? (s.pc.toNat + bs.length) = none) :
    (fetchBytes n s).1 = bs := by
  induction n generalizing s bs with
  | zero => omega
  | succ n ih =>
    cases bs with
    | nil =>
      have : s.mem.read? s.pc.toNat = none := by simpa using hend
      simp [fetchBytes, fetchByte_none this]
    | cons b bs =>
      have h0 : s.mem.read? s.pc.toNat = some b := by simpa using h 0 (by simp)
      simp only [List.length_cons] at hlen hpc hend
      have hpc1 : (s.pc + 1).toNat = s.pc.toNat + 1 := by
        rw [BitVec.toNat_add, show (1 : Word).toNat = 1 from rfl, Nat.mod_eq_of_lt (by omega)]
      simp only [fetchBytes, fetchByte_of_read? h0]
      congr 1
      apply ih
      · omega
      · simp only [setPc_pc, hpc1]; omega
      · intro j hj
        have := h (j + 1) (by simpa using hj)
        simpa only [setPc_pc, setPc_mem, hpc1, List.getElem?_cons_succ, Nat.add_assoc, Nat.add_comm 1] using this
      · simpa only [setPc_pc, setPc_mem, hpc1, Nat.add_assoc, Nat.add_comm 1] using hend

/-- What fetching an instruction can do: nothing but move `pc`. -/
theorem fetchInstr_cases (s : State) :
    (∃ i w, fetchInstr s = .instr i (s.setPc w)) ∨ (∃ w, fetchInstr s = .exhausted (s.setPc w)) := by
  unfold fetchInstr
  cases hb : fetchByte s with
  | none => exact .inr ⟨s.pc, rfl⟩
  | some p =>
    obtain ⟨op, s1⟩ := p
    obtain ⟨_, rfl⟩ := fetchByte_some hb
    have h2 := (fetchBytes_state (operandCount op) (s.setPc (s.pc + 1))).2
    dsimp only
    rw [h2]
    split
    · exact .inl ⟨_, _, rfl⟩
    · exact .inr ⟨_, rfl⟩

end Sys2Proof.Machine
end

