-- ==== Sys2Proof/Laws/Operands.lean ====
section
/-! SUPPORT. What validating register operands can do: continue with the named registers, or raise `RegisterFault`. -/

namespace Sys2Proof.Machine

theorem regIndex?_of_lt {b : Byte} (h : b.toNat < 16) : regIndex? b = some ⟨b.toNat, h⟩ := by simp [regIndex?, h]

theorem regIndex?_of_ge {b : Byte} (h : 16 ≤ b.toNat) : regIndex? b = none := by simp [regIndex?]; omega

/-- `RegisterFault` clears `status` and changes nothing else (R115, R274). -/
theorem raise_registerFault (s : State) :
    s.raise .registerFault = { s with status := false, signal := .registerFault } := by
  simp [State.raise, Signal.clearsStatus, Signal.isFatal]

theorem withReg_of_lt {b : Byte} (h : b.toNat < 16) (s : State) (k : Fin 16 → Result) :
    withReg b s k = k ⟨b.toNat, h⟩ := by simp [withReg, regIndex?_of_lt h]

theorem withReg_of_ge {b : Byte} (h : 16 ≤ b.toNat) (s : State) (k : Fin 16 → Result) :
    withReg b s k = .next { s with status := false, signal := .registerFault } := by
  simp [withReg, regIndex?_of_ge h, raise_registerFault]

/-- What `withReg` can answer. -/
theorem withReg_cases (b : Byte) (s : State) (k : Fin 16 → Result) :
    (∃ h : b.toNat < 16, withReg b s k = k ⟨b.toNat, h⟩) ∨
    (16 ≤ b.toNat ∧ withReg b s k = .next { s with status := false, signal := .registerFault }) := by
  rcases Nat.lt_or_ge b.toNat 16 with h | h
  · exact .inl ⟨h, withReg_of_lt h s k⟩
  · exact .inr ⟨h, withReg_of_ge h s k⟩

theorem withReg2_of_lt {b c : Byte} (hb : b.toNat < 16) (hc : c.toNat < 16) (s : State)
    (k : Fin 16 → Fin 16 → Result) : withReg2 b c s k = k ⟨b.toNat, hb⟩ ⟨c.toNat, hc⟩ := by
  simp [withReg2, withReg_of_lt hb, withReg_of_lt hc]

theorem withReg2_of_ge {b c : Byte} (h : 16 ≤ b.toNat ∨ 16 ≤ c.toNat) (s : State) (k : Fin 16 → Fin 16 → Result) :
    withReg2 b c s k = .next { s with status := false, signal := .registerFault } := by
  rcases withReg_cases b s (fun i => withReg c s fun j => k i j) with ⟨hb, e⟩ | ⟨_, e⟩
  · rw [withReg2, e]; exact withReg_of_ge (by omega) s _
  · exact e

/-- What `withReg2` can answer. -/
theorem withReg2_cases (b c : Byte) (s : State) (k : Fin 16 → Fin 16 → Result) :
    (∃ (hb : b.toNat < 16) (hc : c.toNat < 16), withReg2 b c s k = k ⟨b.toNat, hb⟩ ⟨c.toNat, hc⟩) ∨
    withReg2 b c s k = .next { s with status := false, signal := .registerFault } := by
  by_cases h : 16 ≤ b.toNat ∨ 16 ≤ c.toNat
  · exact .inr (withReg2_of_ge h s k)
  · exact .inl ⟨by omega, by omega, withReg2_of_lt _ _ s k⟩

theorem withReg3_of_lt {b c d : Byte} (hb : b.toNat < 16) (hc : c.toNat < 16) (hd : d.toNat < 16) (s : State)
    (k : Fin 16 → Fin 16 → Fin 16 → Result) :
    withReg3 b c d s k = k ⟨b.toNat, hb⟩ ⟨c.toNat, hc⟩ ⟨d.toNat, hd⟩ := by
  simp [withReg3, withReg_of_lt hb, withReg_of_lt hc, withReg_of_lt hd]

theorem withReg3_of_ge {b c d : Byte} (h : 16 ≤ b.toNat ∨ 16 ≤ c.toNat ∨ 16 ≤ d.toNat) (s : State)
    (k : Fin 16 → Fin 16 → Fin 16 → Result) :
    withReg3 b c d s k = .next { s with status := false, signal := .registerFault } := by
  rcases withReg_cases b s (fun i => withReg c s fun j => withReg d s fun l => k i j l) with ⟨hb, e⟩ | ⟨_, e⟩
  · rw [withReg3, e]
    exact withReg2_of_ge (b := c) (c := d) (by omega) s (fun j l => k ⟨b.toNat, hb⟩ j l)
  · exact e

/-- What `withReg3` can answer. -/
theorem withReg3_cases (b c d : Byte) (s : State) (k : Fin 16 → Fin 16 → Fin 16 → Result) :
    (∃ (hb : b.toNat < 16) (hc : c.toNat < 16) (hd : d.toNat < 16),
      withReg3 b c d s k = k ⟨b.toNat, hb⟩ ⟨c.toNat, hc⟩ ⟨d.toNat, hd⟩) ∨
    withReg3 b c d s k = .next { s with status := false, signal := .registerFault } := by
  by_cases h : 16 ≤ b.toNat ∨ 16 ≤ c.toNat ∨ 16 ≤ d.toNat
  · exact .inr (withReg3_of_ge h s k)
  · exact .inl ⟨by omega, by omega, by omega, withReg3_of_lt _ _ _ s k⟩

/-- What `pop` gives (R14): the top and the stack without it. -/
theorem pop_of_append {s : State} {cs : List Word} {t : Word} (h : s.cs = cs ++ [t]) :
    s.pop = some (t, { s with cs := cs }) := by
  simp [State.pop, h]

theorem pop_of_nil {s : State} (h : s.cs = []) : s.pop = none := by simp [State.pop, h]

/-- Popping what was pushed gives it back. -/
theorem pop_push (s : State) (v : Word) : (s.push v).pop = some (v, s) := pop_of_append (s := s.push v) rfl

end Sys2Proof.Machine
end

