-- ==== Sys2Proof/Laws/Exec.lean ====
section
/-! SUPPORT. What each shared meaning can answer, and what a step can do. -/

namespace Sys2Proof.Machine

/-- Raising a signal that does not clear `status` only records it (R271). -/
theorem raise_of_keeps {g : Signal} (h : g.clearsStatus = false) (s : State) :
    s.raise g = { s with signal := g } := by simp [State.raise, h]

/-- Raising a signal that clears `status` records it and halts (R271). -/
theorem raise_of_clears {g : Signal} (h : g.clearsStatus = true) (s : State) :
    s.raise g = { s with status := false, signal := g } := by simp [State.raise, h]

/-- `Overflowed` is reported exactly when the exact result does not fit (R152). -/
theorem arithSignal_cases (z : Int) :
    (int64Min ≤ z ∧ z ≤ int64Max ∧ arithSignal z = .normal) ∨
    ((z < int64Min ∨ int64Max < z) ∧ arithSignal z = .overflowed) := by
  unfold arithSignal overflows
  by_cases h1 : z < int64Min
  · right; simp [h1]
  · by_cases h2 : int64Max < z
    · right; simp [h2]
    · left; simp [h1, h2]; omega

theorem arithSignal_keeps (z : Int) : (arithSignal z).clearsStatus = false := by
  rcases arithSignal_cases z with ⟨_, _, e⟩ | ⟨_, e⟩ <;> rw [e] <;> rfl

/-- What a LOAD answers (R130). -/
theorem loadImmediate_cases {w : Nat} (reg : Byte) (imm : BitVec w) (s : State) :
    (∃ h : reg.toNat < 16,
      loadImmediate reg imm s = .next ((s.writeReg ⟨reg.toNat, h⟩ (zext64 imm)).raise .normal)) ∨
    (16 ≤ reg.toNat ∧ loadImmediate reg imm s = .next { s with status := false, signal := .registerFault }) := by
  rcases withReg_cases reg s fun i => .next ((s.writeReg i (zext64 imm)).raise .normal) with ⟨h, e⟩ | ⟨h, e⟩
  · exact .inl ⟨h, e⟩
  · exact .inr ⟨h, e⟩

/-- A signal that does not clear `status` leaves it (R271). -/
theorem raise_status_of_keeps {g : Signal} (h : g.clearsStatus = false) (s : State) :
    (s.raise g).status = s.status := by simp [h]

/-- What ADD, SUB and MUL answer (R150). -/
theorem arith_cases (op : Int → Int → Int) (a b d : Byte) (s : State) :
    (∃ (ha : a.toNat < 16) (hb : b.toNat < 16) (hd : d.toNat < 16), arith op a b d s =
      finishArith ⟨d.toNat, hd⟩ (op (s64 (s.readReg ⟨a.toNat, ha⟩)) (s64 (s.readReg ⟨b.toNat, hb⟩))) s) ∨
    arith op a b d s = .next { s with status := false, signal := .registerFault } := by
  rcases withReg3_cases a b d s _ with ⟨ha, hb, hd, e⟩ | e
  · exact .inl ⟨ha, hb, hd, e⟩
  · exact .inr e

/-- What DIV answers (R156). -/
theorem execDiv_cases (a b d : Byte) (s : State) :
    (∃ (ha : a.toNat < 16) (hb : b.toNat < 16) (hd : d.toNat < 16),
      (s64 (s.readReg ⟨b.toNat, hb⟩) = 0 ∧
        execDiv a b d s = .next { s with status := false, signal := .divisionFault }) ∨
      (s64 (s.readReg ⟨b.toNat, hb⟩) ≠ 0 ∧ execDiv a b d s =
        finishArith ⟨d.toNat, hd⟩ (tdiv (s64 (s.readReg ⟨a.toNat, ha⟩)) (s64 (s.readReg ⟨b.toNat, hb⟩))) s)) ∨
    execDiv a b d s = .next { s with status := false, signal := .registerFault } := by
  rcases withReg3_cases a b d s fun i j d =>
      if s64 (s.readReg j) = 0 then .next (s.raise .divisionFault)
      else finishArith d (tdiv (s64 (s.readReg i)) (s64 (s.readReg j))) s with ⟨ha, hb, hd, e⟩ | e
  · refine .inl ⟨ha, hb, hd, ?_⟩
    by_cases hz : s64 (s.readReg ⟨b.toNat, hb⟩) = 0
    · exact .inl ⟨hz, by rw [execDiv, e, if_pos hz, raise_of_clears rfl]⟩
    · exact .inr ⟨hz, by rw [execDiv, e, if_neg hz]⟩
  · exact .inr e

/-- What AND, OR and XOR answer (R170). -/
theorem bitwise_cases (op : Word → Word → Word) (d r : Byte) (s : State) :
    (∃ (hd : d.toNat < 16) (hr : r.toNat < 16), bitwise op d r s =
      .next ((s.writeReg ⟨d.toNat, hd⟩ (op (s.readReg ⟨d.toNat, hd⟩) (s.readReg ⟨r.toNat, hr⟩))).raise .normal)) ∨
    bitwise op d r s = .next { s with status := false, signal := .registerFault } := by
  rcases withReg2_cases d r s fun i j => .next ((s.writeReg i (op (s.readReg i) (s.readReg j))).raise .normal)
    with ⟨hd, hr, e⟩ | e
  · exact .inl ⟨hd, hr, e⟩
  · exact .inr e

/-- What running a handler answers (R223, R224, R226): the state it left, or one of the two broken duties. -/
theorem invoke_cases (h : Handler) (n : Byte) (s : State) :
    invoke h n s = .next ((handlerLeaves h n s).raise .normal) ∨
    (h.dutiful = false ∧ (invoke h n s = .fault .handlerNeverReturns ∨ invoke h n s = .refused .nestedStep)) := by
  unfold invoke
  cases hd : h.dutiful with
  | true => left; simp [handlerConduct, hd]
  | false =>
    cases handlerConduct h n s with
    | returns => left; rfl
    | neverReturns => right; exact ⟨rfl, .inl rfl⟩
    | callsStep => right; exact ⟨rfl, .inr rfl⟩

/-- A halted step (R111). -/
theorem stepHalted_eq (s : State) : stepHalted s = { s with signal := .notRunning } := by
  rw [stepHalted, raise_of_keeps rfl]

/-- The end of the program (R112, R114). -/
theorem exhaust_eq (s : State) : exhaust s = { s with status := false, signal := .programExhausted } := by
  rw [exhaust, raise_of_clears rfl]

/-- What a step can do: nothing while halted; else run one instruction with `pc` moved; else find the memory at its
end, with `pc` moved over the bytes there were. -/
theorem step_cases (s : State) :
    (s.status = false ∧ step s = .next { s with signal := .notRunning }) ∨
    (s.status = true ∧ ∃ i w, fetchInstr s = .instr i (s.setPc w) ∧ step s = exec i (s.setPc w)) ∨
    (s.status = true ∧ ∃ w, fetchInstr s = .exhausted (s.setPc w) ∧
      step s = .next ((s.setPc w).raise .programExhausted)) := by
  unfold step
  cases hs : s.status with
  | false => left; exact ⟨rfl, by simp [stepHalted_eq, hs]⟩
  | true =>
    rcases fetchInstr_cases s with ⟨i, w, e⟩ | ⟨w, e⟩
    · right; left; exact ⟨rfl, i, w, e, by simp [e]⟩
    · right; right; exact ⟨rfl, w, e, by simp [e, exhaust]⟩

/-- What an instruction other than INT can answer: always a next state, one of four forms. It raises a signal other than `NotRunning`; it
writes its destination register and reports a signal that keeps `status`; it calls; it returns. -/
theorem exec_cases (i : Instr) (s : State) (hi : isInt i = false) :
    (∃ g, g ≠ .notRunning ∧ exec i s = .next (s.raise g)) ∨
    (∃ (d : Byte) (hd : d.toNat < 16) (v : Word) (g : Signal), writtenReg? i = some d ∧
      (g = .normal ∨ g = .overflowed) ∧ exec i s = .next ((s.writeReg ⟨d.toNat, hd⟩ v).raise g)) ∨
    (isCallOrRet i = true ∧ ∃ w, exec i s = .next (((s.push s.pc).setPc w).raise .normal)) ∨
    (isCallOrRet i = true ∧ ∃ cs w, exec i s = .next (({ s with cs := cs }.setPc w).raise .normal)) := by
  have signal_of : ∀ z, arithSignal z = .normal ∨ arithSignal z = .overflowed := fun z =>
    (arithSignal_cases z).imp (fun h => h.2.2) (fun h => h.2)
  have ofLoad : ∀ {w : Nat} (r : Byte) (imm : BitVec w), writtenReg? i = some r →
      exec i s = loadImmediate r imm s → (∃ g, g ≠ .notRunning ∧ exec i s = .next (s.raise g)) ∨
      (∃ (d : Byte) (hd : d.toNat < 16) (v : Word) (g : Signal), writtenReg? i = some d ∧
        (g = .normal ∨ g = .overflowed) ∧ exec i s = .next ((s.writeReg ⟨d.toNat, hd⟩ v).raise g)) := by
    intro w r imm hw hx
    rw [hx]
    rcases loadImmediate_cases r imm s with ⟨h, e⟩ | ⟨_, e⟩
    · exact .inr ⟨r, h, _, _, hw, .inl rfl, e⟩
    · exact .inl ⟨.registerFault, nofun, by rw [e, raise_registerFault]⟩
  have ofArith : ∀ (op : Int → Int → Int) (a b d : Byte), writtenReg? i = some d →
      exec i s = arith op a b d s → (∃ g, g ≠ .notRunning ∧ exec i s = .next (s.raise g)) ∨
      (∃ (d : Byte) (hd : d.toNat < 16) (v : Word) (g : Signal), writtenReg? i = some d ∧
        (g = .normal ∨ g = .overflowed) ∧ exec i s = .next ((s.writeReg ⟨d.toNat, hd⟩ v).raise g)) := by
    intro op a b d hw hx
    rw [hx]
    rcases arith_cases op a b d s with ⟨_, _, h, e⟩ | e
    · exact .inr ⟨d, h, _, _, hw, signal_of _, e⟩
    · exact .inl ⟨.registerFault, nofun, by rw [e, raise_registerFault]⟩
  have ofBits : ∀ (op : Word → Word → Word) (d r : Byte), writtenReg? i = some d →
      exec i s = bitwise op d r s → (∃ g, g ≠ .notRunning ∧ exec i s = .next (s.raise g)) ∨
      (∃ (d : Byte) (hd : d.toNat < 16) (v : Word) (g : Signal), writtenReg? i = some d ∧
        (g = .normal ∨ g = .overflowed) ∧ exec i s = .next ((s.writeReg ⟨d.toNat, hd⟩ v).raise g)) := by
    intro op d r hw hx
    rw [hx]
    rcases bitwise_cases op d r s with ⟨h, _, e⟩ | e
    · exact .inr ⟨d, h, _, _, hw, .inl rfl, e⟩
    · exact .inl ⟨.registerFault, nofun, by rw [e, raise_registerFault]⟩
  have left : ∀ {p q r o : Prop}, p ∨ q → p ∨ q ∨ r ∨ o := fun h => h.imp id .inl
  cases i with
  | int n => cases hi
  | nop => exact .inl ⟨.normal, nofun, rfl⟩
  | cpuid => exact .inl ⟨.badOpcode, nofun, rfl⟩
  | badop op => exact .inl ⟨.badOpcode, nofun, rfl⟩
  | endProgram => exact .inl ⟨.normalTermination, nofun, rfl⟩
  | load1b r imm => exact left (ofLoad r imm rfl rfl)
  | load2b r imm => exact left (ofLoad r imm rfl rfl)
  | load3b r imm => exact left (ofLoad r imm rfl rfl)
  | load4b r imm => exact left (ofLoad r imm rfl rfl)
  | load5b r imm => exact left (ofLoad r imm rfl rfl)
  | load6b r imm => exact left (ofLoad r imm rfl rfl)
  | load7b r imm => exact left (ofLoad r imm rfl rfl)
  | load8b r imm => exact left (ofLoad r imm rfl rfl)
  | add a b d => exact left (ofArith _ a b d rfl rfl)
  | sub a b d => exact left (ofArith _ a b d rfl rfl)
  | mul a b d => exact left (ofArith _ a b d rfl rfl)
  | and d r => exact left (ofBits _ d r rfl rfl)
  | or d r => exact left (ofBits _ d r rfl rfl)
  | xor d r => exact left (ofBits _ d r rfl rfl)
  | div a b d =>
    simp only [exec]
    rcases execDiv_cases a b d s with ⟨_, _, hd, ⟨_, e⟩ | ⟨_, e⟩⟩ | e
    · exact .inl ⟨.divisionFault, nofun, by rw [e, raise_of_clears rfl]⟩
    · exact .inr (.inl ⟨d, hd, _, _, rfl, signal_of _, e⟩)
    · exact .inl ⟨.registerFault, nofun, by rw [e, raise_registerFault]⟩
  | not r =>
    simp only [exec, execNot]
    rcases withReg_cases r s fun i => .next ((s.writeReg i (~~~ s.readReg i)).raise .normal) with ⟨h, e⟩ | ⟨_, e⟩
    · exact .inr (.inl ⟨r, h, _, _, rfl, .inl rfl, e⟩)
    · exact .inl ⟨.registerFault, nofun, by rw [e, raise_registerFault]⟩
  | call a => exact .inr (.inr (.inl ⟨rfl, a, rfl⟩))
  | ret =>
    simp only [exec, execRet, State.pop]
    cases s.cs.getLast? with
    | none => exact .inl ⟨.callStackUnderflow, nofun, rfl⟩
    | some t => exact .inr (.inr (.inr ⟨rfl, _, t, rfl⟩))

end Sys2Proof.Machine
end

