-- ==== Sys2Proof/Laws/PerInstr.lean ====
section
/-! SUPPORT. Statements made per instruction. `EncodeLength`: the encoding of a well-formed instruction has the length
R84 gives its opcode. -/

namespace Sys2Proof.Laws.EncodeLength

/-- The encoding has the length of its opcode (R84). -/
def Statement (i : Instr) : Prop := i.wellFormed = true → (encode i).length = opLength i.opcode

theorem nop : Statement .nop := fun _ => rfl
theorem load1b (reg : Byte) (imm : BitVec 8) : Statement (.load1b reg imm) := fun _ => rfl
theorem load2b (reg : Byte) (imm : BitVec 16) : Statement (.load2b reg imm) := fun _ => rfl
theorem load3b (reg : Byte) (imm : BitVec 24) : Statement (.load3b reg imm) := fun _ => rfl
theorem load4b (reg : Byte) (imm : BitVec 32) : Statement (.load4b reg imm) := fun _ => rfl
theorem load5b (reg : Byte) (imm : BitVec 40) : Statement (.load5b reg imm) := fun _ => rfl
theorem load6b (reg : Byte) (imm : BitVec 48) : Statement (.load6b reg imm) := fun _ => rfl
theorem load7b (reg : Byte) (imm : BitVec 56) : Statement (.load7b reg imm) := fun _ => rfl
theorem load8b (reg : Byte) (imm : BitVec 64) : Statement (.load8b reg imm) := fun _ => rfl
theorem add (src1 src2 dst : Byte) : Statement (.add src1 src2 dst) := fun _ => rfl
theorem sub (src1 src2 dst : Byte) : Statement (.sub src1 src2 dst) := fun _ => rfl
theorem mul (src1 src2 dst : Byte) : Statement (.mul src1 src2 dst) := fun _ => rfl
theorem div (src1 src2 dst : Byte) : Statement (.div src1 src2 dst) := fun _ => rfl
theorem not (reg : Byte) : Statement (.not reg) := fun _ => rfl
theorem and (dst right : Byte) : Statement (.and dst right) := fun _ => rfl
theorem or (dst right : Byte) : Statement (.or dst right) := fun _ => rfl
theorem xor (dst right : Byte) : Statement (.xor dst right) := fun _ => rfl
theorem call (address : Word) : Statement (.call address) := fun _ => rfl
theorem ret : Statement .ret := fun _ => rfl
theorem endProgram : Statement .endProgram := fun _ => rfl
theorem cpuid : Statement .cpuid := fun _ => rfl
theorem int (intno : Byte) : Statement (.int intno) := fun _ => rfl

theorem badop (op : Byte) : Statement (.badop op) := by
  intro h
  have h22 : 22 ≤ op.toNat := by simpa [Instr.wellFormed] using h
  have all : ∀ b : Byte, 22 ≤ b.toNat → opLength b = 1 := by decide
  exact (all op h22).symm

end Sys2Proof.Laws.EncodeLength
end

