-- ==== Sys2Proof/Tests/Slice0.lean ====
section
/-! SUPPORT. Tests: the well-formedness smoke, decoding of words written out from R82 and R90, single steps with
results from 95_test_vectors.md (the vector's id stands at each), and a witness for every statement with hypotheses. -/

namespace Sys2Proof.Tests

open Sys2Proof Sys2Proof.Machine

/-! ### Helpers -/

/-- A running core whose memory is `bs`, everything else as after reset. -/
def running (bs : List Byte) : State := { State.reset with mem := Memory.ofBytes bs, status := true }

/-- The same with some registers set. -/
def runningWith (bs : List Byte) (xs : List (Fin 16 × Word)) : State :=
  xs.foldl (fun s p => s.writeReg p.1 p.2) (running bs)

def nextOf : Result → Option State
  | .next t => some t
  | .fault _ => none
  | .refused _ => none

/-- After a step: one register, `pc`, and the result. -/
def seen (r : Fin 16) (s : State) : Option (Word × Word × Signal × Bool) :=
  (nextOf (step s)).map fun t => (t.readReg r, t.pc, t.stepResult)

/-- After a step: the call stack, `pc`, and the result. -/
def seenStack (s : State) : Option (List Word × Word × Signal × Bool) :=
  (nextOf (step s)).map fun t => (t.cs, t.pc, t.stepResult)

/-- The hypotheses of the first clause of `FetchesAs`, met by `running bs`. -/
abbrev Fetchable (bs : List Byte) : Prop :=
  (running bs).Inv ∧ (running bs).status = true ∧ (running bs).mem.Holds (running bs).pc.toNat bs

/-- The hypotheses of its second clause, met by a memory that ends after `n` of the bytes. -/
abbrev CutAfter (n : Nat) (bs : List Byte) : Prop :=
  (running (bs.take n)).Inv ∧ (running (bs.take n)).status = true ∧ 0 < n ∧ n < bs.length ∧
    (running (bs.take n)).mem.Holds (running (bs.take n)).pc.toNat (bs.take n) ∧
    (running (bs.take n)).mem.length = (running (bs.take n)).pc.toNat + n

/-! ### WellFormed smoke: an ill-formed term for its one check -/

theorem test_badop_of_a_table_opcode_is_ill_formed : (Instr.badop 0x15).wellFormed = false := by decide
theorem test_badop_of_an_invalid_opcode_is_well_formed : (Instr.badop 0x16).wellFormed = true := by decide

/-! ### Decoding, word by word (R82, R90) -/

theorem test_decode_nop : decode [0x00] = .ok (.nop, []) := rfl
theorem test_decode_load1b : decode [0x01, 0x05, 0xFF] = .ok (.load1b 5 255, []) := rfl
theorem test_decode_load2b : decode [0x02, 0x00, 0xF4, 0x01] = .ok (.load2b 0 500, []) := rfl
theorem test_decode_load3b : decode [0x03, 0x01, 0x01, 0x02, 0x03] = .ok (.load3b 1 197121, []) := rfl
theorem test_decode_load4b : decode [0x04, 0x02, 0x78, 0x56, 0x34, 0x12] = .ok (.load4b 2 0x12345678, []) := rfl
theorem test_decode_load5b : decode [0x05, 0x03, 0, 0, 0, 0, 0x01] = .ok (.load5b 3 4294967296, []) := rfl
theorem test_decode_load6b :
    decode [0x06, 0x04, 0x01, 0, 0, 0, 0, 0x80] = .ok (.load6b 4 140737488355329, []) := rfl
theorem test_decode_load7b :
    decode [0x07, 0x06, 0, 0, 0, 0, 0, 0, 0x01] = .ok (.load7b 6 281474976710656, []) := rfl
theorem test_decode_load8b :
    decode [0x08, 0x07, 0xEF, 0xCD, 0xAB, 0x89, 0x67, 0x45, 0x23, 0x01] =
      .ok (.load8b 7 0x0123456789ABCDEF, []) := rfl
theorem test_decode_add : decode [0x09, 0x00, 0x01, 0x02] = .ok (.add 0 1 2, []) := rfl
theorem test_decode_sub : decode [0x0A, 0x00, 0x01, 0x02] = .ok (.sub 0 1 2, []) := rfl
theorem test_decode_mul : decode [0x0B, 0x00, 0x02, 0x01] = .ok (.mul 0 2 1, []) := rfl
theorem test_decode_div : decode [0x0C, 0x00, 0x03, 0x04] = .ok (.div 0 3 4, []) := rfl
theorem test_decode_not : decode [0x0D, 0x04] = .ok (.not 4, []) := rfl
theorem test_decode_and : decode [0x0E, 0x00, 0x01] = .ok (.and 0 1, []) := rfl
theorem test_decode_or : decode [0x0F, 0x00, 0x01] = .ok (.or 0 1, []) := rfl
theorem test_decode_xor : decode [0x10, 0x00, 0x01] = .ok (.xor 0 1, []) := rfl
theorem test_decode_call :
    decode [0x11, 0xEF, 0xCD, 0xAB, 0x89, 0x67, 0x45, 0x23, 0x01] = .ok (.call 0x0123456789ABCDEF, []) := rfl
theorem test_decode_ret : decode [0x12] = .ok (.ret, []) := rfl
theorem test_decode_end : decode [0x13] = .ok (.endProgram, []) := rfl
theorem test_decode_cpuid : decode [0x14, 0x00] = .ok (.cpuid, [0x00]) := rfl
theorem test_decode_int : decode [0x15, 0x10] = .ok (.int 16, []) := rfl
theorem test_decode_badop : decode [0xFF, 0x13] = .ok (.badop 0xFF, [0x13]) := rfl
theorem test_decode_truncated : decode [0x09, 0x00, 0x01] = .error .truncated := rfl

/-- The table's numbering (R82): byte `j` in bits 8j+7 to 8j. -/
theorem test_decodeTableWord : decodeTableWord 32 0x01F40002 = some (.load2b 0 500) := by decide
theorem test_decodeTableWord_short : decodeTableWord 8 0x11 = some (.call 0) := by decide

/-! ### Memory and assembler -/

/-- R11: `MemRead` after `MemWrite`, little-endian. -/
theorem test_memRead_memWrite : ((running [1, 2, 3, 4]).memWrite 1 2 0x01F4).memRead 0 4 = some 0x0401F401 := by decide

/-- R94: `LOAD2B r0, 500` emits `02 00 F4 01`; a value that does not fit is refused. -/
theorem test_asm_load : (AsmLine.load 1 0 500).bytes? = some [0x02, 0x00, 0xF4, 0x01] := by decide
theorem test_asm_load_too_wide : (AsmLine.load 0 0 256).bytes? = none := by decide

/-! ### Single steps -/

/-- V-STEP-3 -/
theorem test_nop : seen 0 (running [0x00]) = some (0, 1, .normal, true) := by decide
/-- V-LOAD-2, on a register that holds -1. -/
theorem test_load1b : seen 5 (runningWith [0x01, 0x05, 0xFF] [(5, -1)]) = some (255, 3, .normal, true) := by decide
/-- V-LOAD-22 -/
theorem test_load1b_bad_register : seen 0 (running [0x01, 0x10, 0x04]) = some (0, 3, .registerFault, false) := by decide
/-- V-LOAD-4 -/
theorem test_load2b : seen 0 (runningWith [0x02, 0x00, 0xF4, 0x01] [(0, -1)]) = some (500, 4, .normal, true) := by decide
/-- V-LOAD-25 -/
theorem test_load2b_truncated : seen 0 (running [0x02, 0x00, 0xF4]) = some (0, 3, .programExhausted, false) := by decide
/-- V-LOAD-7 -/
theorem test_load3b : seen 1 (runningWith [0x03, 0x01, 0x01, 0x02, 0x03] [(1, -1)]) = some (0x030201, 5, .normal, true) := by
  decide
/-- V-LOAD-28: truncation before the register check. -/
theorem test_load3b_truncated_first : seen 0 (running [0x03, 0x10, 0x01]) = some (0, 3, .programExhausted, false) := by
  decide
/-- V-LOAD-9 -/
theorem test_load4b :
    seen 2 (runningWith [0x04, 0x02, 0xFF, 0xFF, 0xFF, 0xFF] [(2, -1)]) = some (0xFFFFFFFF, 6, .normal, true) := by decide
/-- V-LOAD-11 -/
theorem test_load5b :
    seen 3 (runningWith [0x05, 0x03, 0, 0, 0, 0, 0x01] [(3, -1)]) = some (0x0100000000, 7, .normal, true) := by decide
/-- V-LOAD-13 -/
theorem test_load6b :
    seen 4 (runningWith [0x06, 0x04, 0x01, 0, 0, 0, 0, 0x80] [(4, -1)]) = some (0x800000000001, 8, .normal, true) := by
  decide
/-- V-LOAD-15 -/
theorem test_load7b :
    seen 6 (runningWith [0x07, 0x06, 0xFF, 0xFF, 0xFF, 0xFF, 0xFF, 0xFF, 0xFF] [(6, -1)]) =
      some (0x00FFFFFFFFFFFFFF, 9, .normal, true) := by decide
/-- V-LOAD-19: LOAD8B can load a negative number (C4). -/
theorem test_load8b :
    seen 9 (running [0x08, 0x09, 0, 0, 0, 0, 0, 0, 0, 0x80]) = some (0x8000000000000000, 10, .normal, true) := by decide
/-- V-LOAD-23 -/
theorem test_load8b_bad_register :
    seen 0 (running [0x08, 0xFF, 1, 2, 3, 4, 5, 6, 7, 8]) = some (0, 10, .registerFault, false) := by decide
/-- V-ADD-3 -/
theorem test_add_wraps :
    seen 2 (runningWith [0x09, 0x00, 0x01, 0x02] [(0, 0x8000000000000000), (1, -1)]) =
      some (0x7FFFFFFFFFFFFFFF, 4, .overflowed, true) := by decide
/-- V-ADD-5 -/
theorem test_add_no_unsigned_carry :
    seen 2 (runningWith [0x09, 0x00, 0x01, 0x02] [(0, -1), (1, 1), (2, 99)]) = some (0, 4, .normal, true) := by decide
/-- V-SUB-1 -/
theorem test_sub_order :
    seen 2 (runningWith [0x0A, 0x00, 0x01, 0x02] [(0, 4), (1, 6)]) = some (-2, 4, .normal, true) := by decide
/-- V-SUB-5 -/
theorem test_sub_overflow :
    seen 2 (runningWith [0x0A, 0x00, 0x01, 0x02] [(1, 0x8000000000000000)]) =
      some (0x8000000000000000, 4, .overflowed, true) := by decide
/-- V-MUL-8 -/
theorem test_mul_overflow :
    seen 2 (runningWith [0x0B, 0x00, 0x01, 0x02] [(0, 3037000500), (1, 3037000500)]) =
      some (0x8000000008ABC290, 4, .overflowed, true) := by decide
/-- V-MUL-10 -/
theorem test_mul_fits :
    seen 2 (runningWith [0x0B, 0x00, 0x01, 0x02] [(0, -4294967296), (1, 2147483648)]) =
      some (0x8000000000000000, 4, .normal, true) := by decide
/-- V-DIV-2 -/
theorem test_div_toward_zero :
    seen 2 (runningWith [0x0C, 0x00, 0x01, 0x02] [(0, -7), (1, 2)]) = some (-3, 4, .normal, true) := by decide
/-- V-DIV-15 -/
theorem test_div_by_zero :
    seen 2 (runningWith [0x0C, 0x00, 0x01, 0x02] [(0, 5), (2, 99)]) = some (99, 4, .divisionFault, false) := by decide
/-- V-NOT-4 -/
theorem test_not :
    seen 4 (runningWith [0x0D, 0x04] [(4, 0x7FFFFFFFFFFFFFFF)]) = some (0x8000000000000000, 2, .normal, true) := by decide
/-- V-AND-6 -/
theorem test_and :
    seen 0 (runningWith [0x0E, 0x00, 0x01] [(0, 0xFF00FF00FF00FF00), (1, 0x0FF00FF00FF00FF0)]) =
      some (0x0F000F000F000F00, 3, .normal, true) := by decide
/-- V-OR-6 -/
theorem test_or :
    seen 0 (runningWith [0x0F, 0x00, 0x01] [(0, 0xFF00FF00FF00FF00), (1, 0x0FF00FF00FF00FF0)]) =
      some (0xFFF0FFF0FFF0FFF0, 3, .normal, true) := by decide
/-- V-XOR-6 -/
theorem test_xor :
    seen 0 (runningWith [0x10, 0x00, 0x01] [(0, 0xFF00FF00FF00FF00), (1, 0x0FF00FF00FF00FF0)]) =
      some (0xF0F0F0F0F0F0F0F0, 3, .normal, true) := by decide
/-- V-CTL-3 -/
theorem test_call :
    seenStack { running [0, 0, 0x11, 0x05, 0, 0, 0, 0, 0, 0, 0, 0x13] with pc := 2, cs := [77] } =
      some ([77, 11], 5, .normal, true) := by decide
/-- V-CTL-6 -/
theorem test_call_truncated :
    seenStack (running [0x11, 0x0E, 0, 0, 0, 0, 0, 0]) = some ([], 8, .programExhausted, false) := by decide
/-- V-CTL-9 -/
theorem test_ret :
    seenStack { running [0, 0, 0, 0x12] with pc := 3, cs := [1, 2] } = some ([1], 2, .normal, true) := by decide
/-- V-CTL-7 -/
theorem test_ret_underflow : seenStack (running [0x12]) = some ([], 1, .callStackUnderflow, false) := by decide
/-- V-STEP-6 (source scenario S3) -/
theorem test_end : seen 0 (running [0x13]) = some (0, 1, .normalTermination, false) := by decide
/-- V-STEP-7 -/
theorem test_cpuid : seen 0 (running [0x14]) = some (0, 1, .badOpcode, true) := by decide
/-- V-STEP-11 -/
theorem test_badop : seen 0 (running [0xFF, 0x01, 0x00, 0x04]) = some (0, 1, .badOpcode, true) := by decide
/-- V-INT-3 -/
theorem test_int_unregistered :
    seenStack ((running [0x15, 0x11]).attachInterrupt 16 ⟨0, true⟩) = some ([], 2, .unhandledInterrupt, false) := by decide
/-- V-INT-1, as far as no handler's behaviour is known: the handler is run with `pc` past the INT, and `Normal` is
reported. -/
theorem test_int_registered :
    (nextOf (step ((running [0x15, 0x10]).attachInterrupt 16 ⟨7, true⟩))).map (fun t => (t.signal, t.handlerCalls)) =
      some (.normal, 1) := rfl
/-- V-STEP-2 -/
theorem test_not_running :
    seen 0 { running [0x13] with status := false } = some (0, 0, .notRunning, false) := by decide
/-- V-STEP-5 -/
theorem test_past_the_end : seen 0 { running [0x00] with pc := 5 } = some (0, 5, .programExhausted, false) := by decide
/-- V-HOST-5, 7, 8: load, start, step. -/
theorem test_boot :
    (nextOf (runOps [.load [0x01, 0x00, 0x04], .start, .step] State.reset)).map (fun t => (t.readReg 0, t.pc)) =
      some (4, 3) := by decide
/-- P6: the run loop stops by itself at the end of the program. -/
theorem test_runLoop :
    (nextOf (runLoop 9 (running [0xFF, 0x14, 0x00]))).map (fun t => (t.pc, t.stepResult)) =
      some (3, .programExhausted, false) := by decide
/-- The dumps of R254. -/
theorem test_register_dump : (runningWith [] [(3, -2), (0, 4)]).registerDump = [(0, 4), (3, -2)] := by decide
theorem test_stack_dump : ((running []).push 9 |>.push 19).stackDump = [19, 9] := by decide
/-- `withFetchWord` makes the next step run the instruction. -/
theorem test_withFetchWord : seen 0 (State.reset.withFetchWord 24 0x040001) = some (4, 3, .normal, true) := by decide

/-! ### Witnesses: each shows a state and operands that meet the hypotheses of the statement it is named after -/

theorem witness_DecodeInvertsEncode : (Instr.badop 22).wellFormed = true := by decide
theorem witness_EncodeInvertsDecode : decode [0x16, 0x00] = .ok (.badop 0x16, [0x00]) := rfl
theorem witness_DecodeTotalOverOpcodes :
    (22 : Nat) ≤ (0x16 : Byte).toNat ∧ (0x15 : Byte).toNat < 22 ∧ (0x14 : Byte).toNat = 20 := by decide
theorem witness_InstructionLengthByOpcode : decode [0x15, 0x00] = .ok (.int 0, []) := rfl
theorem witness_AssembledLinesDecode :
    (AsmLine.load 7 15 18446744073709551615).bytes? = some [8, 15, 255, 255, 255, 255, 255, 255, 255, 255] ∧
      (AsmLine.load 7 15 18446744073709551615).instr? = some (.load8b 15 (-1)) := by decide
theorem witness_StepRunsDecodedInstruction :
    (running [0x0D, 0x04, 0x13]).status = true ∧ decode [0x0D, 0x04, 0x13] = .ok (.not 4, [0x13]) ∧
      (running [0x0D, 0x04, 0x13]).mem.Holds (running [0x0D, 0x04, 0x13]).pc.toNat [0x0D, 0x04, 0x13] ∧
      (running [0x0D, 0x04, 0x13]).pc.toNat + [0x0D, 0x04, 0x13].length < 2 ^ 64 :=
  ⟨rfl, rfl, by decide, by decide⟩
theorem witness_HaltedStepChangesNothing : State.reset.status = false := rfl
theorem witness_EndOfProgramAtOpcodeFetch :
    (running []).Inv ∧ (running []).status = true ∧ (running []).mem.length ≤ (running []).pc.toNat := by decide
theorem witness_TruncatedInstructionExhausts :
    (running [0x09, 0x00, 0x01]).Inv ∧ (running [0x09, 0x00, 0x01]).status = true ∧
      (running [0x09, 0x00, 0x01]).mem.read? (running [0x09, 0x00, 0x01]).pc.toNat = some 0x09 ∧
      (running [0x09, 0x00, 0x01]).mem.length < (running [0x09, 0x00, 0x01]).pc.toNat + opLength 0x09 := by decide
theorem witness_FetchStaysInsideMemory :
    ({ running [0x00] with pc := 1 } : State).Inv ∧
      ({ running [0x00] with pc := 1 } : State).pc.toNat ≤ ({ running [0x00] with pc := 1 } : State).mem.length := by decide
theorem witness_NopOnlyAdvances : Fetchable [0x00] := by decide
theorem witness_CpuidActsAsBadOpcode : Fetchable [0x14] := by decide
theorem witness_InvalidOpcodeIsSkipped :
    22 ≤ (0x16 : Byte).toNat ∧ 22 ≤ (0xFF : Byte).toNat ∧ Fetchable [0x16] ∧ Fetchable [0xFF] := by decide
theorem witness_EndHalts : Fetchable [0x13] := by decide
theorem witness_LoadImmediateFamily_registers :
    (15 : Byte).toNat < 16 ∧ 16 ≤ (16 : Byte).toNat ∧ [(0x80 : Byte)].length = 1 := by decide
theorem witness_LoadImmediateFamily_fetch :
    Fetchable [1, 15, 4] ∧ CutAfter 2 [1, 15, 4] ∧ Fetchable [2, 0, 4, 5] ∧ CutAfter 3 [2, 0, 4, 5] ∧
      Fetchable [3, 0, 4, 5, 6] ∧ CutAfter 4 [3, 0, 4, 5, 6] ∧ Fetchable [4, 0, 4, 5, 6, 7] ∧
      CutAfter 5 [4, 0, 4, 5, 6, 7] := by decide
theorem witness_LoadImmediateFamily_fetch_wide :
    Fetchable [5, 0, 4, 5, 6, 7, 8] ∧ CutAfter 6 [5, 0, 4, 5, 6, 7, 8] ∧ Fetchable [6, 0, 4, 5, 6, 7, 8, 9] ∧
      CutAfter 7 [6, 0, 4, 5, 6, 7, 8, 9] ∧ Fetchable [7, 0, 4, 5, 6, 7, 8, 9, 1] ∧
      CutAfter 8 [7, 0, 4, 5, 6, 7, 8, 9, 1] ∧ Fetchable [8, 16, 4, 5, 6, 7, 8, 9, 1, 2] ∧
      CutAfter 9 [8, 16, 4, 5, 6, 7, 8, 9, 1, 2] := by decide
theorem witness_AddWrapsExactSum :
    Fetchable [0x09, 0, 1, 15] ∧ CutAfter 3 [0x09, 0, 1, 15] ∧ (15 : Byte).toNat < 16 ∧ 16 ≤ (16 : Byte).toNat := by decide
theorem witness_SubWrapsExactDifference :
    Fetchable [0x0A, 0, 1, 15] ∧ CutAfter 1 [0x0A, 0, 1, 15] ∧ (15 : Byte).toNat < 16 ∧ 16 ≤ (16 : Byte).toNat := by decide
theorem witness_MulWrapsExactProduct :
    Fetchable [0x0B, 0, 1, 15] ∧ CutAfter 2 [0x0B, 0, 1, 15] ∧ (15 : Byte).toNat < 16 ∧ 16 ≤ (16 : Byte).toNat := by decide
theorem witness_DivRoundsTowardZero :
    Fetchable [0x0C, 0, 1, 15] ∧ CutAfter 3 [0x0C, 0, 1, 15] ∧ (1 : Byte).toNat < 16 ∧ 16 ≤ (16 : Byte).toNat ∧
      ((runningWith [] [(1, -1)]).readReg 1).toInt ≠ 0 := by decide
theorem witness_DivByZeroFaults :
    (15 : Byte).toNat < 16 ∧ (State.reset.readReg ⟨(15 : Byte).toNat, by decide⟩).toInt = 0 := by decide
theorem witness_ArithmeticIsPure :
    Instr.div ∈ [Instr.add, Instr.sub, Instr.mul, Instr.div] ∧ (15 : Byte).toNat < 16 ∧ 16 ≤ (16 : Byte).toNat ∧
      (runningWith [] [(1, 5)]).readReg 1 = (runningWith [0x00] [(1, 5), (2, 9)]).readReg 1 :=
  ⟨by simp, by decide, by decide, by decide⟩
theorem witness_NotInvertsInPlace :
    Fetchable [0x0D, 15] ∧ CutAfter 1 [0x0D, 15] ∧ (15 : Byte).toNat < 16 ∧ 16 ≤ (16 : Byte).toNat := by decide
theorem witness_AndCombinesBits :
    Fetchable [0x0E, 0, 15] ∧ CutAfter 2 [0x0E, 0, 15] ∧ (15 : Byte).toNat < 16 ∧ 16 ≤ (16 : Byte).toNat := by decide
theorem witness_OrCombinesBits :
    Fetchable [0x0F, 0, 15] ∧ CutAfter 1 [0x0F, 0, 15] ∧ (15 : Byte).toNat < 16 ∧ 16 ≤ (16 : Byte).toNat := by decide
theorem witness_XorCombinesBits :
    Fetchable [0x10, 0, 15] ∧ CutAfter 2 [0x10, 0, 15] ∧ (15 : Byte).toNat < 16 ∧ 16 ≤ (16 : Byte).toNat := by decide
theorem witness_RegisterIdioms : (0 : Byte).toNat < 16 ∧ (15 : Byte).toNat < 16 ∧ (0 : Byte) ≠ 15 := by decide
theorem witness_OutOfRangeRegisterFaults :
    (16 : Byte) ∈ (Instr.div 0 16 1).regOperands ∧ 16 ≤ (16 : Byte).toNat := by decide
theorem witness_CallPushesAndJumps :
    ([14, 0, 0, 0, 0, 0, 0, 0] : List Byte).length = 8 ∧ Fetchable [0x11, 14, 0, 0, 0, 0, 0, 0, 0] ∧
      CutAfter 8 [0x11, 14, 0, 0, 0, 0, 0, 0, 0] := by decide
theorem witness_RetPopsOrUnderflows :
    Fetchable [0x12] ∧ ((running [0x12]).push 9).cs = [] ++ [9] ∧ (running [0x12]).cs = [] := by decide
theorem witness_UnregisteredInterruptFaults :
    Fetchable [0x15, 255] ∧ CutAfter 1 [0x15, 255] ∧ State.reset.lookupHandler 255 = none := by decide
theorem witness_HandledInterruptRunsHandler :
    (State.reset.attachInterrupt 255 ⟨3, true⟩).lookupHandler 255 = some ⟨3, true⟩ ∧
      (Handler.mk 3 true).dutiful = true := by decide
theorem witness_UnvouchedHandlerOutcomes :
    (State.reset.attachInterrupt 0 ⟨3, false⟩).lookupHandler 0 = some ⟨3, false⟩ ∧
      (Handler.mk 3 false).dutiful = false ∧
      ∃ lent : Borrow, lent =
        { mem := [], pc := 0, status := false, regs := Vector.replicate 16 0, cs := [],
          it := (State.reset.attachInterrupt 0 ⟨3, false⟩).it } :=
  ⟨by decide, rfl, _, rfl⟩
theorem witness_StepKeepsInvariant :
    (running [0x00]).Inv ∧ (nextOf (step (running [0x00]))).isSome = true := by decide
theorem witness_HostOperationsKeepInvariant :
    State.reset.Inv ∧ (nextOf (runOps [.load [0x00], .start, .step, .halt] State.reset)).isSome = true := by decide
theorem witness_StepAlwaysCompletes : ((running [0x15, 0x10]).attachInterrupt 16 ⟨1, true⟩).HandlersDutiful := by
  intro n h hl
  by_cases hn : n = 16
  · subst hn
    rw [State.attachInterrupt, lookupHandler_setHandler_self] at hl
    cases hl; rfl
  · rw [State.attachInterrupt, lookupHandler_setHandler_ne _ _ hn] at hl
    simp [running, State.lookupHandler, State.reset] at hl
theorem witness_WaysARunEnds :
    (running [0x13]).status = true ∧ (nextOf (step (running [0x13]))).map State.stepResult = some (.normalTermination, false) ∧
      (nextOf (step (running [0x14]))).map State.stepResult = some (.badOpcode, true) ∧
      (nextOf (step (running [0x00]))).map State.stepResult = some (.normal, true) := by decide
theorem witness_OnlyStartSetsRunning :
    State.reset.status = false ∧ (nextOf (applyOp .start State.reset)).isSome = true ∧
      (nextOf (applyOp .step State.reset)).isSome = true := by decide
theorem witness_EveryInstructionFrame :
    isInt (.add 0 1 2) = false ∧ (nextOf (exec (.add 0 1 2) (running []))).isSome = true ∧
      writtenReg? (.add 0 1 2) ≠ some (regByte 3) ∧ isCallOrRet (.add 0 1 2) = false := by decide
theorem witness_StepWritesNoMemory :
    (nextOf (step (running [0x00]))).map State.handlerCalls = some (running [0x00]).handlerCalls := by decide
theorem witness_FatalFaultsChangeOnlyStatus :
    (nextOf (exec .ret State.reset)).map (fun t => t.signal.isFatal) = some true := by decide
theorem witness_LoadAppends :
    (running [0x00]).Inv ∧ (running [0x00]).mem.length + ([0x13] : List Byte).length ≤ memMax := by decide
theorem witness_LoadBeyondCapacityRefused :
    memMax < State.reset.mem.length + (List.replicate (2 ^ 64) (0 : Byte)).length := by
  rw [List.length_replicate]
  exact Nat.lt_add_left _ (by decide : 2 ^ 64 - 1 < 2 ^ 64)
theorem witness_AttachOverwritesOneEntry : (0 : Byte) ≠ 255 := by decide
theorem witness_SnapshotAndDumpsShowState :
    ((runningWith [0x00] [(3, 7)]).push 9).Inv ∧ ((runningWith [0x00] [(3, 7)]).push 9).cs = [] ++ [9] ∧
      (running [0x00]).Inv ∧ (running [0x00]).cs = [] :=
  ⟨by decide, rfl, by decide, rfl⟩
theorem witness_BootRunsFirstInstruction : (Instr.load8b 16 0).wellFormed = true := by decide
theorem witness_ResumeAfterRunningOff :
    ({ running [0x00] with pc := 1 } : State).Inv ∧ ({ running [0x00] with pc := 1 } : State).status = true ∧
      ({ running [0x00] with pc := 1 } : State).pc.toNat = ({ running [0x00] with pc := 1 } : State).mem.length ∧
      ({ running [0x00] with pc := 1 } : State).mem.length + ([0x13] : List Byte).length ≤ memMax ∧
      decode [0x13] = .ok (.endProgram, []) :=
  ⟨by decide, rfl, by decide, by decide, rfl⟩

end Sys2Proof.Tests
end

/-! The statements of 40_step_and_nop.md on the two ends a step can meet before its instruction has any effect: the
memory ends where the opcode byte is due (R112), and an operand byte names no register (R115). -/

namespace Sys2Proof.Machine

/-- With no byte at `pc` the fetch ends before it begins, and `pc` does not move (R112). -/
theorem fetchInstr_of_read?_none {s : State} (h : s.mem.read? s.pc.toNat = none) : fetchInstr s = .exhausted s := by
  simp [fetchInstr, fetchByte_none h]

/-- A running core whose fetch ends in the state `t` reports the end of the program there (R112, R114). -/
theorem step_of_exhausted {s t : State} (hrun : s.status = true) (h : fetchInstr s = .exhausted t) :
    step s = .next { t with status := false, signal := .programExhausted } := by
  simp [step, hrun, h, exhaust_eq]

section
variable {a b d : Byte} (s : State)

/-- A LOAD whose operand byte names no register (R130). -/
theorem loadImmediate_of_ge {w : Nat} (h : 16 ≤ a.toNat) (imm : BitVec w) :
    loadImmediate a imm s = .next { s with status := false, signal := .registerFault } :=
  withReg_of_ge h s _

/-- ADD, SUB and MUL with an operand byte that names no register (R150). -/
theorem arith_of_ge (op : Int → Int → Int) (h : 16 ≤ a.toNat ∨ 16 ≤ b.toNat ∨ 16 ≤ d.toNat) :
    arith op a b d s = .next { s with status := false, signal := .registerFault } :=
  withReg3_of_ge h s _

/-- DIV checks its registers before its divisor (R115, R282). -/
theorem execDiv_of_ge (h : 16 ≤ a.toNat ∨ 16 ≤ b.toNat ∨ 16 ≤ d.toNat) :
    execDiv a b d s = .next { s with status := false, signal := .registerFault } :=
  withReg3_of_ge h s _

/-- AND, OR and XOR with an operand byte that names no register (R170). -/
theorem bitwise_of_ge (op : Word → Word → Word) (h : 16 ≤ a.toNat ∨ 16 ≤ b.toNat) :
    bitwise op a b s = .next { s with status := false, signal := .registerFault } :=
  withReg2_of_ge h s _

/-- NOT with an operand byte that names no register (R171). -/
theorem execNot_of_ge (h : 16 ≤ a.toNat) :
    execNot a s = .next { s with status := false, signal := .registerFault } :=
  withReg_of_ge h s _

end

/-- An instruction with a register operand byte of 16 or more raises `RegisterFault` and does nothing else: each
instruction hands all its register operand bytes to one validation, before it reads or writes anything (R115). -/
theorem exec_of_regOperand_ge {i : Instr} (s : State) (h : ∃ b ∈ i.regOperands, 16 ≤ b.toNat) :
    exec i s = .next { s with status := false, signal := .registerFault } := by
  cases i with
  | load1b r imm | load2b r imm | load3b r imm | load4b r imm
  | load5b r imm | load6b r imm | load7b r imm | load8b r imm =>
    exact loadImmediate_of_ge s (by simpa [Instr.regOperands] using h) imm
  | add a b d | sub a b d | mul a b d =>
    exact arith_of_ge s _ (by simpa [Instr.regOperands] using h)
  | div a b d => exact execDiv_of_ge s (by simpa [Instr.regOperands] using h)
  | and d r | or d r | xor d r => exact bitwise_of_ge s _ (by simpa [Instr.regOperands] using h)
  | not r => exact execNot_of_ge s (by simpa [Instr.regOperands] using h)
  | nop | call _ | ret | endProgram | cpuid | int _ | badop _ => simp [Instr.regOperands] at h

/-- Settles O9: in canonical form no byte lies at or past the end, so the opcode fetch fails at once. -/
theorem endOfProgramAtOpcodeFetch : Obligations.EndOfProgramAtOpcodeFetch := by
  intro s ⟨hwf, _⟩ hrun hend
  have hnone : s.mem.read? s.pc.toNat = none := (read?_eq_none_iff hwf _).mpr hend
  exact step_of_exhausted hrun (fetchInstr_of_read?_none hnone)

/-- Settles O28. -/
theorem outOfRangeRegisterFaults : Obligations.OutOfRangeRegisterFaults :=
  fun _ b s hmem hge => exec_of_regOperand_ge s ⟨b, hmem, hge⟩

end Sys2Proof.Machine

/-! Fetching whole and cut instructions: which byte strings are fetched as which instruction (R113, R114, R116). -/

namespace Sys2Proof.Machine

/-- A byte string lies at an offset iff its first byte lies there and the others lie one further. -/
theorem holds_cons {m : Memory} {a : Nat} {b : Byte} {bs : List Byte} :
    m.Holds a (b :: bs) ↔ m.read? a = some b ∧ m.Holds (a + 1) bs := by
  constructor
  · intro h
    refine ⟨h 0 (by simp), fun j hj => ?_⟩
    simpa only [Nat.add_assoc, Nat.add_comm 1, List.getElem?_cons_succ] using h (j + 1) (by simpa using hj)
  · rintro ⟨hb, hbs⟩ (_ | j) hj
    · exact hb
    · simpa only [Nat.add_assoc, Nat.add_comm 1, List.getElem?_cons_succ] using hbs j (by simpa using hj)

/-- A byte string that lies in a canonical memory ends inside it (R51). -/
theorem add_length_le_of_holds {m : Memory} (hwf : m.wf = true) {a : Nat} {bs : List Byte} (hne : bs ≠ [])
    (h : m.Holds a bs) : a + bs.length ≤ m.length := by
  have hpos : 0 < bs.length := List.length_pos_iff.mpr hne
  have hlast : m.read? (a + (bs.length - 1)) ≠ none := by
    rw [h _ (by omega), Ne, List.getElem?_eq_none_iff]; omega
  rw [Ne, read?_eq_none_iff hwf] at hlast
  omega

/-- Adding 1 to a `pc` that has room adds 1 to its number. -/
theorem toNat_add_one {w : Word} (h : w.toNat + 1 < 2 ^ 64) : (w + 1).toNat = w.toNat + 1 := by
  rw [BitVec.toNat_add, show (1 : Word).toNat = 1 from rfl, Nat.mod_eq_of_lt h]

/-- Fetches that start one byte past `pc`, after the opcode byte, and get `tail` leave `pc` just past `tail`. -/
theorem fetchBytes_eq_of_fst {n : Nat} {s : State} {tail : List Byte}
    (h : (fetchBytes n (s.setPc (s.pc + 1))).1 = tail) :
    fetchBytes n (s.setPc (s.pc + 1)) = (tail, s.setPc (s.pc + BitVec.ofNat 64 (tail.length + 1))) := by
  have hstate := (fetchBytes_state n (s.setPc (s.pc + 1))).2
  rw [h] at hstate
  refine Prod.ext h (hstate.trans ?_)
  rw [setPc_pc, BitVec.add_assoc, show (1 : Word) = BitVec.ofNat 64 1 from rfl, ← BitVec.ofNat_add, Nat.add_comm 1]
  rfl

/-- A whole instruction at `pc` is fetched, with `pc` moved just past it (R113, R116). -/
theorem fetchInstr_of_whole {s : State} {op : Byte} {tail : List Byte} (hlen : tail.length = operandCount op)
    (hpc : s.pc.toNat + (tail.length + 1) < 2 ^ 64) (h : s.mem.Holds s.pc.toNat (op :: tail)) :
    fetchInstr s = .instr (assembleInstr op tail) (s.setPc (s.pc + BitVec.ofNat 64 (tail.length + 1))) := by
  obtain ⟨hop, htail⟩ := holds_cons.mp h
  have hpc1 : (s.pc + 1).toNat = s.pc.toNat + 1 := toNat_add_one (by omega)
  have hgot : (fetchBytes (operandCount op) (s.setPc (s.pc + 1))).1 = tail :=
    fetchBytes_holds hlen (by rw [setPc_pc, hpc1]; omega) (by simpa only [setPc_pc, setPc_mem, hpc1] using htail)
  have hdecode : decode (op :: tail) = .ok (assembleInstr op tail, []) := by
    simp [decode_cons_of_le hlen.ge, ← hlen]
  simp only [fetchInstr, fetchByte_of_read? hop, fetchBytes_eq_of_fst hgot, hdecode]

/-- When the memory ends inside an instruction, the fetch stops there, over the bytes it got (R114, D9). -/
theorem fetchInstr_of_cut {s : State} {op : Byte} {tail : List Byte} (hwf : s.mem.wf = true)
    (hlen : tail.length < operandCount op) (hpc : s.pc.toNat + (tail.length + 1) < 2 ^ 64)
    (h : s.mem.Holds s.pc.toNat (op :: tail)) (hend : s.mem.length = s.pc.toNat + (tail.length + 1)) :
    fetchInstr s = .exhausted (s.setPc (s.pc + BitVec.ofNat 64 (tail.length + 1))) := by
  obtain ⟨hop, htail⟩ := holds_cons.mp h
  have hpc1 : (s.pc + 1).toNat = s.pc.toNat + 1 := toNat_add_one (by omega)
  have hnone : s.mem.read? (s.pc.toNat + 1 + tail.length) = none := (read?_eq_none_iff hwf _).mpr (by omega)
  have hgot : (fetchBytes (operandCount op) (s.setPc (s.pc + 1))).1 = tail :=
    fetchBytes_short hlen (by rw [setPc_pc, hpc1]; omega)
      (by simpa only [setPc_pc, setPc_mem, hpc1] using htail)
      (by simpa only [setPc_pc, setPc_mem, hpc1] using hnone)
  simp only [fetchInstr, fetchByte_of_read? hop, fetchBytes_eq_of_fst hgot, decode_cons_of_lt hlen]

/-- An opcode byte with exactly its operand bytes is fetched as the instruction they assemble to: the memory that
holds them ends at or below `MEM_MAX`, so `pc` never wraps on the way (R53, R113, R114). -/
theorem fetchesAs_assembleInstr {op : Byte} {tail : List Byte} (hlen : tail.length = operandCount op) :
    FetchesAs (assembleInstr op tail) (op :: tail) := by
  constructor
  · intro s ⟨hwf, hmax⟩ hrun h
    have hfits := add_length_le_of_holds hwf (by simp) h
    simp only [List.length_cons, memMax] at hfits hmax
    have hfetch := fetchInstr_of_whole hlen (by omega) h
    simp [step, hrun, hfetch, State.setPc]
  · intro s n ⟨hwf, hmax⟩ hrun hpos hn h hend
    obtain ⟨m, rfl⟩ : ∃ m, n = m + 1 := ⟨n - 1, by omega⟩
    simp only [List.length_cons, memMax] at hn hmax
    have hgot : (tail.take m).length = m := List.length_take_of_le (by omega)
    have hfetch := fetchInstr_of_cut hwf (tail := tail.take m) (by omega) (by omega) h (by omega)
    have hpc : s.pc + BitVec.ofNat 64 (m + 1) = BitVec.ofNat 64 s.mem.length := by
      rw [hend, BitVec.ofNat_add s.pc.toNat, BitVec.ofNat_toNat, BitVec.setWidth_eq]
    rw [step_of_exhausted hrun hfetch, hgot, hpc]
    rfl

end Sys2Proof.Machine

/-! The LOAD family (R130 to R138): one rule for the eight widths. -/

namespace Sys2Proof.Machine

theorem littleEndianSum_cons (b : Byte) (bs : List Byte) :
    littleEndianSum (b :: bs) = b.toNat + 256 * littleEndianSum bs := by
  simp [littleEndianSum, List.range_succ_eq_map, Function.comp_def, Nat.pow_succ', Nat.mul_left_comm,
    List.sum_map_mul_left]

/-- The sum R11 writes is the number the decoder reads (R54, R55). -/
theorem littleEndianSum_eq_leNat (bs : List Byte) : littleEndianSum bs = leNat bs := by
  induction bs with
  | nil => rfl
  | cons b bs ih => rw [littleEndianSum_cons, ih, leNat]

/-- An immediate as wide as its bytes keeps their value (R87). -/
theorem toNat_ofNat_leNat {k : Nat} {bs : List Byte} (h : bs.length = k) :
    (BitVec.ofNat (8 * k) (leNat bs)).toNat = leNat bs := by
  have hlt : leNat bs < 2 ^ (8 * k) := by
    simpa only [h, Nat.pow_mul] using leNat_lt bs
  rw [BitVec.toNat_ofNat, Nat.mod_eq_of_lt hlt]

/-- Zero extension to 64 bits keeps the unsigned value (R15). -/
theorem toNat_zext64 {w : Nat} (hw : w ≤ 64) (v : BitVec w) : (zext64 v).toNat = v.toNat :=
  BitVec.toNat_setWidth_of_le hw

/-- A word read signed (R9): its unsigned value, less `2^64` from `2^63` on. -/
theorem toInt_eq_ite_toNat (v : Word) :
    v.toInt = if v.toNat < 2 ^ 63 then (v.toNat : Int) else (v.toNat : Int) - 2 ^ 64 := by
  rw [BitVec.toInt_eq_toNat_cond]
  split <;> split <;> omega

/-- Writing register `d` and reporting a signal that keeps `status` changes nothing else (R130, R150, R170). -/
theorem writesOnlyReg_writeReg_raise (d : Fin 16) (v : Word) {g : Signal} (hg : g.clearsStatus = false) (s : State) :
    WritesOnlyReg d s ((s.writeReg d v).raise g) :=
  ⟨fun _ hi => readReg_writeReg_ne s v hi, rfl, raise_status_of_keeps hg _, rfl, fun _ => rfl,
    ⟨rfl, fun _ => rfl⟩, rfl⟩

/-- A LOAD whose operand byte names a register (R130). -/
theorem loadImmediate_of_lt {w : Nat} {reg : Byte} (h : reg.toNat < 16) (imm : BitVec w) (s : State) :
    loadImmediate reg imm s = .next ((s.writeReg ⟨reg.toNat, h⟩ (zext64 imm)).raise .normal) :=
  withReg_of_lt h s _

/-- An instruction whose opcode byte is `k`, whose operand bytes are a register byte and `k` bytes of immediate, and
which runs `loadImmediate`, obeys the rule of LOADkB (R130). -/
theorem loadsImmediate_of_exec {k : Nat} {mk : Byte → BitVec (8 * k) → Instr} (hk : k ≤ 8)
    (hcount : operandCount (BitVec.ofNat 8 k) = k + 1)
    (hasm : ∀ reg bs, assembleInstr (BitVec.ofNat 8 k) (reg :: bs) = mk reg (BitVec.ofNat (8 * k) (leNat bs)))
    (hexec : ∀ reg imm s, exec (mk reg imm) s = loadImmediate reg imm s) : LoadsImmediate k mk := by
  refine ⟨fun reg bs hlen => ?fetch, fun s reg imm h => ?write, fun s reg imm h => ?fault⟩
  case fetch =>
    have hfetch := fetchesAs_assembleInstr (op := BitVec.ofNat 8 k) (tail := reg :: bs) (by simp [hcount, hlen])
    rw [hasm] at hfetch
    exact ⟨_, (toNat_ofNat_leNat hlen).trans (littleEndianSum_eq_leNat bs).symm, hfetch⟩
  case write =>
    have hval : (zext64 imm).toNat = imm.toNat := toNat_zext64 (by omega) imm
    refine ⟨_, (hexec reg imm s).trans (loadImmediate_of_lt h imm s), ?_, ?_, rfl,
      writesOnlyReg_writeReg_raise _ _ rfl s⟩
    · rw [readReg_raise, readReg_writeReg_self, hval]
    · rw [readReg_raise, readReg_writeReg_self, toInt_eq_ite_toNat, hval]
  case fault => exact (hexec reg imm s).trans (loadImmediate_of_ge s h imm)

/-- Settles O16: the eight rows differ only in their width, which the decoder's and the dispatcher's rows show. -/
theorem loadImmediateFamily : Obligations.LoadImmediateFamily := by
  refine ⟨?_, ?_, ?_, ?_, ?_, ?_, ?_, ?_⟩ <;>
    exact loadsImmediate_of_exec (by decide) rfl (fun _ _ => rfl) (fun _ _ _ => rfl)

end Sys2Proof.Machine

/-! Purity of ADD, SUB, MUL, DIV (R158): each hands the exact result of its two source values (none when the divisor
is 0) to one common end, and that end reads nothing else. -/

namespace Sys2Proof.Machine

/-- How an arithmetic instruction ends once its exact result is known: it writes the result, or raises
`DivisionFault` where there is none. -/
def finishExact (d : Fin 16) (r : Option Int) (s : State) : Result :=
  r.elim (.next (s.raise .divisionFault)) fun z => finishArith d z s

/-- The exact result of DIV: none by a divisor of 0, else the quotient rounded toward zero (R156). -/
def exactQuotient (x y : Int) : Option Int := if y = 0 then none else some (tdiv x y)

/-- The two-source skeleton of R150: with register bytes in range, the constructor `mk` ends by the exact result `f`
of its two source values. -/
def EndsByExactResult (mk : Byte → Byte → Byte → Instr) (f : Int → Int → Option Int) : Prop :=
  ∀ (s : State) (a b d : Byte) (ha : a.toNat < 16) (hb : b.toNat < 16) (hd : d.toNat < 16),
    exec (mk a b d) s =
      finishExact ⟨d.toNat, hd⟩ (f (s64 (s.readReg ⟨a.toNat, ha⟩)) (s64 (s.readReg ⟨b.toNat, hb⟩))) s

/-- An instruction that runs `arith op` always has an exact result, the one `op` gives (R150). -/
theorem endsByExactResult_of_arith {mk : Byte → Byte → Byte → Instr} {op : Int → Int → Int}
    (hexec : ∀ a b d s, exec (mk a b d) s = arith op a b d s) : EndsByExactResult mk fun x y => some (op x y) :=
  fun s a b d ha hb hd => (hexec a b d s).trans (withReg3_of_lt ha hb hd s _)

theorem endsByExactResult_div : EndsByExactResult .div exactQuotient := by
  intro s a b d ha hb hd
  have hexec : exec (.div a b d) s = execDiv a b d s := rfl
  rw [hexec, execDiv, withReg3_of_lt ha hb hd, exactQuotient]
  split <;> rfl

theorem mem_arithmetic {mk : Byte → Byte → Byte → Instr} :
    mk ∈ [Instr.add, Instr.sub, Instr.mul, Instr.div] ↔ mk = .add ∨ mk = .sub ∨ mk = .mul ∨ mk = .div := by
  simp only [List.mem_cons, List.not_mem_nil, or_false]

/-- The four arithmetic instructions share the skeleton of R150. -/
theorem exists_endsByExactResult {mk : Byte → Byte → Byte → Instr}
    (h : mk ∈ [Instr.add, Instr.sub, Instr.mul, Instr.div]) : ∃ f, EndsByExactResult mk f := by
  rcases mem_arithmetic.mp h with rfl | rfl | rfl | rfl
  · exact ⟨_, endsByExactResult_of_arith (op := (· + ·)) fun _ _ _ _ => rfl⟩
  · exact ⟨_, endsByExactResult_of_arith (op := (· - ·)) fun _ _ _ _ => rfl⟩
  · exact ⟨_, endsByExactResult_of_arith (op := (· * ·)) fun _ _ _ _ => rfl⟩
  · exact ⟨_, endsByExactResult_div⟩

/-- All three operand bytes of an arithmetic instruction are register operands. -/
theorem regOperands_arithmetic {mk : Byte → Byte → Byte → Instr}
    (h : mk ∈ [Instr.add, Instr.sub, Instr.mul, Instr.div]) (a b d : Byte) : (mk a b d).regOperands = [a, b, d] := by
  rcases mem_arithmetic.mp h with rfl | rfl | rfl | rfl <;> rfl

theorem arithSignal_ne_divisionFault (z : Int) : arithSignal z ≠ .divisionFault := by
  rcases arithSignal_cases z with ⟨_, _, e⟩ | ⟨_, e⟩ <;> simp [e]

/-- Two states that end by the same exact result report the same signal and leave the same value in the destination;
nothing else is written, and on `DivisionFault` only `status` and the signal (R158). -/
theorem finishExact_agrees (d : Fin 16) (r : Option Int) (s s' : State) :
    ∃ t t', finishExact d r s = .next t ∧ finishExact d r s' = .next t' ∧ t.signal = t'.signal ∧
      (if t.signal = .divisionFault then
        t = { s with status := false, signal := .divisionFault }
      else
        t.readReg d = t'.readReg d ∧ WritesOnlyReg d s t) := by
  cases r with
  | none => exact ⟨_, _, rfl, rfl, rfl, raise_of_clears rfl s⟩
  | some z =>
    refine ⟨_, _, rfl, rfl, rfl, ?_⟩
    rw [raise_signal, if_neg (arithSignal_ne_divisionFault z)]
    refine ⟨?_, writesOnlyReg_writeReg_raise d _ (arithSignal_keeps z) s⟩
    simp only [readReg_raise, readReg_writeReg_self]

/-- Settles O22: states that agree on the two sources have the same exact result, and only that enters the end. -/
theorem arithmeticIsPure : Obligations.ArithmeticIsPure := by
  intro mk hmk
  obtain ⟨f, hf⟩ := exists_endsByExactResult hmk
  refine ⟨fun s s' a b d ha hb hd hx hy => ?agree, fun s a b d hge => ?fault⟩
  case agree =>
    rw [hf s a b d ha hb hd, hf s' a b d ha hb hd, hx, hy]
    exact finishExact_agrees _ _ s s'
  case fault => exact exec_of_regOperand_ge s (by simpa [regOperands_arithmetic hmk] using hge)

end Sys2Proof.Machine

/-! The statements of 43_bitwise.md: AND, OR and XOR obey one rule, bit by bit (R170); NOT has one operand (R171). -/

namespace Sys2Proof.Machine

/-- AND, OR and XOR with operand bytes that name registers (R170). -/
theorem bitwise_of_lt (op : Word → Word → Word) {d r : Byte} (hd : d.toNat < 16) (hr : r.toNat < 16) (s : State) :
    bitwise op d r s = .next ((s.writeReg ⟨d.toNat, hd⟩
      (op (s.readReg ⟨d.toNat, hd⟩) (s.readReg ⟨r.toNat, hr⟩))).raise .normal) :=
  withReg2_of_lt hd hr s _

/-- NOT with an operand byte that names a register (R171). -/
theorem execNot_of_lt {r : Byte} (hr : r.toNat < 16) (s : State) :
    execNot r s = .next ((s.writeReg ⟨r.toNat, hr⟩ (~~~ s.readReg ⟨r.toNat, hr⟩)).raise .normal) :=
  withReg_of_lt hr s _

/-- An instruction of two register bytes that runs `bitwise op` obeys the rule of R170 with the truth function `f`,
when `op` computes `f` on each bit. -/
theorem combinesBits_of_exec {opcode : Byte} {mk : Byte → Byte → Instr} {op : Word → Word → Word}
    {f : Bool → Bool → Bool} (hcount : operandCount opcode = 2)
    (hasm : ∀ d r, assembleInstr opcode [d, r] = mk d r)
    (hexec : ∀ d r s, exec (mk d r) s = bitwise op d r s)
    (hbit : ∀ (x y : Word) (j : Nat), (op x y).getLsbD j = f (x.getLsbD j) (y.getLsbD j)) :
    CombinesBits opcode mk f := by
  refine ⟨fun d r => ?fetch, fun s d r hd hr => ?write, fun s d r h => ?fault⟩
  case fetch => exact hasm d r ▸ fetchesAs_assembleInstr (tail := [d, r]) hcount.symm
  case write =>
    refine ⟨_, (hexec d r s).trans (bitwise_of_lt op hd hr s), fun j _ => ?_, rfl,
      writesOnlyReg_writeReg_raise _ _ rfl s⟩
    rw [readReg_raise, readReg_writeReg_self, hbit]
  case fault => exact (hexec d r s).trans (bitwise_of_ge s op h)

/-- Settles O24. -/
theorem andCombinesBits : Obligations.AndCombinesBits :=
  combinesBits_of_exec rfl (fun _ _ => rfl) (fun _ _ _ => rfl) fun _ _ _ => BitVec.getLsbD_and

/-- Settles O25. -/
theorem orCombinesBits : Obligations.OrCombinesBits :=
  combinesBits_of_exec rfl (fun _ _ => rfl) (fun _ _ _ => rfl) fun _ _ _ => BitVec.getLsbD_or

/-- Settles O26. -/
theorem xorCombinesBits : Obligations.XorCombinesBits :=
  combinesBits_of_exec rfl (fun _ _ => rfl) (fun _ _ _ => rfl) fun _ _ _ => BitVec.getLsbD_xor

/-- Inverting all bits of a word turns its signed value `v` into `-v - 1` (R171): the unsigned values add up to
`2^64 - 1`, so exactly one of the two words has its sign bit set. -/
theorem toInt_not_eq_neg_sub_one (v : Word) : (~~~v).toInt = -v.toInt - 1 := by
  have hsum : (~~~v).toNat = 2 ^ 64 - 1 - v.toNat := BitVec.toNat_not
  have hlt := v.isLt
  rw [toInt_eq_ite_toNat, toInt_eq_ite_toNat, hsum]
  split <;> split <;> omega

/-- Settles O23. -/
theorem notInvertsInPlace : Obligations.NotInvertsInPlace := by
  refine ⟨fun r => ?fetch, fun s r hr => ?write, fun s r h => ?fault⟩
  case fetch => exact fetchesAs_assembleInstr (op := 0x0D) (tail := [r]) rfl
  case write =>
    refine ⟨_, execNot_of_lt hr s, fun j hj => ?_, ?_, rfl, writesOnlyReg_writeReg_raise _ _ rfl s⟩
    · rw [readReg_raise, readReg_writeReg_self, BitVec.getLsbD_not, decide_eq_true hj, Bool.true_and]
    · rw [readReg_raise, readReg_writeReg_self, toInt_not_eq_neg_sub_one]
  case fault => exact execNot_of_ge s h

end Sys2Proof.Machine

/-! The statements of 44_control_transfer.md: one equation for CALL and one for each end of RET; a chain of either is
then an induction over the offsets it pushes or pops. -/

namespace Sys2Proof.Machine

/-- CALL with `pc` at the next-instruction offset (R191). -/
theorem exec_call (address : Word) (s : State) :
    exec (.call address) s = .next { s with pc := address, cs := s.cs ++ [s.pc], signal := .normal } :=
  congrArg Host.Outcome.next (raise_of_keeps rfl ((s.push s.pc).setPc address))

/-- RET at a call stack with top `t` (R193). -/
theorem exec_ret_of_append {s : State} {cs : List Word} {t : Word} (h : s.cs = cs ++ [t]) :
    exec .ret s = .next { s with pc := t, cs := cs, signal := .normal } := by
  simp [exec, execRet, pop_of_append h, State.setPc, raise_of_keeps (g := .normal) rfl]

/-- RET at an empty call stack (R193). -/
theorem exec_ret_of_nil {s : State} (h : s.cs = []) :
    exec .ret s = .next { s with status := false, signal := .callStackUnderflow } := by
  simp [exec, execRet, pop_of_nil h, raise_of_clears (g := .callStackUnderflow) rfl]

/-- Settles O29: the immediate of CALL is as wide as its 8 bytes, so no bit of the sum is lost. -/
theorem callPushesAndJumps : Obligations.CallPushesAndJumps := by
  refine ⟨fun bs hlen => ?fetch, fun s address => exec_call address s⟩
  case fetch =>
    have hvalue : (immediate 64 bs 0).toNat = leNat bs := toNat_ofNat_leNat hlen
    exact ⟨immediate 64 bs 0, hvalue.trans (littleEndianSum_eq_leNat bs).symm,
      fetchesAs_assembleInstr (op := 0x11) hlen⟩

/-- Settles O30. -/
theorem retPopsOrUnderflows : Obligations.RetPopsOrUnderflows :=
  ⟨fetchesAs_assembleInstr (op := 0x12) (tail := []) rfl, fun _ _ _ => exec_ret_of_append,
    fun _ => exec_ret_of_nil⟩

/-- CALLs one after the other push the offsets they return to, in order, and touch neither registers nor `status`
(R194). -/
theorem callChain_pushes (calls : List (Word × Word)) (s : State) :
    ∃ t, callChain calls s = .next t ∧ t.cs = s.cs ++ calls.map (fun c => c.1 + 9) ∧
      t.regs = s.regs ∧ t.status = s.status := by
  induction calls generalizing s with
  | nil => exact ⟨s, rfl, (List.append_nil _).symm, rfl, rfl⟩
  | cons call calls ih =>
    obtain ⟨offset, target⟩ := call
    obtain ⟨t, hrun, hcs, hregs, hstatus⟩ :=
      ih { s with pc := target, cs := s.cs ++ [offset + 9], signal := .normal }
    refine ⟨t, ?_, ?_, hregs, hstatus⟩
    · rw [callChain, exec_call]
      exact hrun
    · rw [hcs, List.map_cons, List.append_assoc, List.singleton_append]

/-- RETs one after the other resume at the entries on top of the call stack, the topmost first, uncover the stack
below them, and touch neither registers nor `status` (R194). -/
theorem retChain_pops (cs resumed : List Word) {s : State} (h : s.cs = cs ++ resumed.reverse) :
    ∃ u, retChain resumed.length s = some (resumed, u) ∧ u.cs = cs ∧ u.regs = s.regs ∧ u.status = s.status := by
  induction resumed generalizing s with
  | nil => exact ⟨s, rfl, by simpa using h, rfl, rfl⟩
  | cons top resumed ih =>
    have htop : s.cs = (cs ++ resumed.reverse) ++ [top] := by rw [h, List.reverse_cons, List.append_assoc]
    obtain ⟨u, hrun, hcs, hregs, hstatus⟩ :=
      ih (s := { s with pc := top, cs := cs ++ resumed.reverse, signal := .normal }) rfl
    refine ⟨u, ?_, hcs, hregs, hstatus⟩
    simp [retChain, exec_ret_of_append htop, hrun]

/-- Settles O31: the RETs find on the stack exactly what the CALLs pushed. -/
theorem nestedCallsRoundTrip : Obligations.NestedCallsRoundTrip := by
  intro s calls
  obtain ⟨t, hcall, hpushed, htregs, htstatus⟩ := callChain_pushes calls s
  obtain ⟨u, hret, hcs, huregs, hustatus⟩ :=
    retChain_pops s.cs (calls.map (fun c => c.1 + 9)).reverse (s := t) (by rw [hpushed, List.reverse_reverse])
  rw [List.length_reverse, List.length_map] at hret
  exact ⟨t, u, hcall, hpushed, hret, hcs, huregs.trans htregs, hustatus.trans htstatus⟩

end Sys2Proof.Machine

/-! The statement of 45_halt.md: END is one opcode byte without operands, and its one effect is its signal. -/

namespace Sys2Proof.Machine

/-- END raises its signal and has no other effect (R210). -/
theorem exec_endProgram (s : State) : exec .endProgram s = .next (s.raise .normalTermination) := rfl

/-- Settles O15: NormalTermination is a signal that clears `status`, and END does nothing but raise it. -/
theorem endHalts : Obligations.EndHalts := by
  refine ⟨?fetch, fun s => ?halt⟩
  case fetch => exact fetchesAs_assembleInstr (op := 0x13) (tail := []) rfl
  case halt => rw [exec_endProgram, raise_of_clears (g := .normalTermination) rfl]

end Sys2Proof.Machine

/-! The statement of 46_interrupt.md on a number without a handler: INT has one operand byte, and with an empty table
entry its one effect is its signal. -/

namespace Sys2Proof.Machine

/-- INT with a number the table has no handler for raises its signal and has no other effect (R221). -/
theorem exec_int_of_lookupHandler_none {s : State} {n : Byte} (h : s.lookupHandler n = none) :
    exec (.int n) s = .next (s.raise .unhandledInterrupt) := by
  have hexec : exec (.int n) s = execInt n s := rfl
  simp only [hexec, execInt, h]

/-- Settles O32: UnhandledInterrupt is a signal that clears `status`, and INT does nothing but raise it. -/
theorem unregisteredInterruptFaults : Obligations.UnregisteredInterruptFaults := by
  refine ⟨fun n => ?fetch, fun s n h => ?fault⟩
  case fetch => exact fetchesAs_assembleInstr (op := 0x15) (tail := [n]) rfl
  case fault => rw [exec_int_of_lookupHandler_none h, raise_of_clears (g := .unhandledInterrupt) rfl]

end Sys2Proof.Machine

/-! The statements of 47_host_interface.md: where the bytes of a `load` land (R242), what `attach_interrupt`, `start`
and `halt` write (R244 to R248), and what the snapshot and the dumps show (R253, R254). -/

namespace Sys2Proof.Machine

/-- Below its old end a memory reads the same after bytes were appended (R242). -/
theorem read?_append_of_lt {m : Memory} (hwf : m.wf = true) (bs : List Byte) {a : Nat} (ha : a < m.length) :
    (m.append bs).read? a = m.read? a := by
  rw [read?_of_wf (wf_append hwf bs), append_bytes, List.getElem?_append_left (by simpa using ha), read?_of_wf hwf]

/-- Appended bytes lie from the old end on, in order (R242). -/
theorem holds_append {m : Memory} (hwf : m.wf = true) (bs : List Byte) : (m.append bs).Holds m.length bs := by
  intro j _
  rw [read?_of_wf (wf_append hwf bs), append_bytes, List.getElem?_append_right (by simp), bytes_length,
    Nat.add_sub_cancel_left]

/-- A `load` that fits appends to the memory and leaves the other items of the state (R242). -/
theorem load_of_fits {s : State} {bs : List Byte} (hfit : s.mem.length + bs.length ≤ memMax) :
    s.load bs = .next { s with mem := s.mem.append bs } := if_pos hfit

/-- Appending bytes that fit keeps the invariant (R53). -/
theorem inv_append {s : State} {bs : List Byte} (hinv : s.Inv) (hfit : s.mem.length + bs.length ≤ memMax) :
    ({ s with mem := s.mem.append bs } : State).Inv :=
  ⟨wf_append hinv.1 bs, (append_length s.mem bs).le.trans hfit⟩

/-- Settles O45. -/
theorem loadAppends : Obligations.LoadAppends := by
  intro s bs hinv hfit
  have hwf : s.mem.wf = true := hinv.1
  exact ⟨_, load_of_fits hfit, append_length s.mem bs, holds_append hwf bs,
    fun _ ha => read?_append_of_lt hwf bs ha, rfl, inv_append hinv hfit⟩

/-- The snapshot's memory shows at every offset the byte there is, and none where there is none (R253). -/
theorem snapshot_mem_getElem? {s : State} (hinv : s.Inv) (a : Nat) : s.snapshot.mem[a]? = s.mem.read? a :=
  (read?_of_wf hinv.1 a).symm

/-- The signed value of a register is 0 only if the register is: signed reading is one-to-one. -/
theorem s64_ne_zero_iff (w : Word) : s64 w ≠ 0 ↔ w ≠ 0 :=
  not_congr (BitVec.toInt_inj (x := w) (y := 0))

/-- The register dump lists the registers that are not 0, each with its signed value (R254). -/
theorem mem_registerDump_iff {s : State} {i : Fin 16} {v : Int} :
    (i, v) ∈ s.registerDump ↔ s.readReg i ≠ 0 ∧ s64 (s.readReg i) = v := by
  simp [State.registerDump]

/-- The dump of an empty call stack is empty (R254). -/
theorem stackDump_of_nil {s : State} (h : s.cs = []) : s.stackDump = [] := by simp [State.stackDump, h]

/-- The stack dump lists the top entry before the dump of the entries below it (R254). -/
theorem stackDump_of_append {s : State} {cs : List Word} {t : Word} (h : s.cs = cs ++ [t]) :
    s.stackDump = t :: ({ s with cs := cs } : State).stackDump := by
  simp [State.stackDump, h]

/-- Settles O49: the register dump leaves out a register by its pattern and shows its signed value, which is 0 for
the same registers. -/
theorem snapshotAndDumpsShowState : Obligations.SnapshotAndDumpsShowState := by
  intro s hinv
  refine ⟨rfl, rfl, fun _ => rfl, snapshot_mem_getElem? hinv, fun i v => ?registers,
    stackDump_of_nil, fun _ _ => stackDump_of_append⟩
  case registers =>
    rw [mem_registerDump_iff, ← s64_ne_zero_iff]
    constructor <;> (rintro ⟨hne, rfl⟩; exact ⟨hne, rfl⟩)

/-- Settles O47: `attach_interrupt` is the write of one table entry. -/
theorem attachOverwritesOneEntry : Obligations.AttachOverwritesOneEntry :=
  fun s n h => ⟨lookupHandler_setHandler_self s n h, fun _ hne => lookupHandler_setHandler_ne s h hne, rfl⟩

/-- Settles O48: each operation writes or reads the one item `status`, which its definition shows. -/
theorem startHaltAndIsRunning : Obligations.StartHaltAndIsRunning := fun _ => ⟨rfl, rfl, rfl⟩

end Sys2Proof.Machine

/-! The statements of 60_exceptions.md: `DivisionFault` is the end of DIV without an exact result (R275). -/

namespace Sys2Proof.Machine

/-- By a divisor of 0 no dividend has an exact quotient, 0 included (R156, R275). -/
@[simp] theorem exactQuotient_zero (x : Int) : exactQuotient x 0 = none := if_pos rfl

/-- Without an exact result the step clears `status` and reports `DivisionFault`; the destination does not enter
(R275). -/
@[simp] theorem finishExact_none (d : Fin 16) (s : State) :
    finishExact d none s = .next { s with status := false, signal := .divisionFault } :=
  congrArg Host.Outcome.next (raise_of_clears rfl s)

/-- Settles O21: DIV ends by its exact quotient, and by a divisor of 0 there is none. -/
theorem divByZeroFaults : Obligations.DivByZeroFaults := by
  intro s a b d hb ha hd hzero
  have hdivisor : s64 (s.readReg ⟨b.toNat, hb⟩) = 0 := hzero
  rw [endsByExactResult_div s a b d ha hb hd, hdivisor, exactQuotient_zero, finishExact_none]

end Sys2Proof.Machine

/-! The statements of 30_encoding.md: decoding and encoding undo each other (R80 to R88), decoding is total over the
opcode byte (R96), and the assembly lines of R94 emit encodings. -/

namespace Sys2Proof

/-! ### From the instruction to its bytes -/

/-- The encoding of a well-formed instruction has the length of its opcode (R84). -/
theorem encode_length {i : Instr} (hwf : i.wellFormed = true) : (encode i).length = opLength i.opcode := by
  cases i with
  | badop op => exact Laws.EncodeLength.badop op hwf
  | _ => rfl

/-- The operand bytes of a well-formed instruction are as many as its opcode asks for (R84). -/
theorem operandBytes_length {i : Instr} (hwf : i.wellFormed = true) :
    i.operandBytes.length = operandCount i.opcode := by
  rw [operandCount, ← encode_length hwf, encode, List.length_cons, Nat.add_sub_cancel]

/-- An immediate of `k` bytes survives encoding: no bit of it is dropped (R54, R88). -/
theorem ofNat_leNat_leBytes (k : Nat) (imm : BitVec (8 * k)) :
    BitVec.ofNat (8 * k) (leNat (leBytes k imm.toNat)) = imm := by
  have hlt : imm.toNat < 256 ^ k := by simpa only [Nat.pow_mul] using imm.isLt
  rw [leNat_leBytes, Nat.mod_eq_of_lt hlt, BitVec.ofNat_toNat, BitVec.setWidth_eq]

/-- An opcode byte no other row of the table takes assembles to `badop` (R90, R96). -/
theorem assembleInstr_of_ge {op : Byte} (h : 22 ≤ op.toNat) (bs : List Byte) : assembleInstr op bs = .badop op := by
  unfold assembleInstr
  split
  case h_23 => rfl
  all_goals omega

/-- The decoder's row for an instruction's opcode rebuilds the instruction from its operand bytes (R82, R90). -/
theorem assembleInstr_operandBytes {i : Instr} (hwf : i.wellFormed = true) :
    assembleInstr i.opcode i.operandBytes = i := by
  cases i with
  | load1b r imm => exact congrArg (Instr.load1b r) (ofNat_leNat_leBytes 1 imm)
  | load2b r imm => exact congrArg (Instr.load2b r) (ofNat_leNat_leBytes 2 imm)
  | load3b r imm => exact congrArg (Instr.load3b r) (ofNat_leNat_leBytes 3 imm)
  | load4b r imm => exact congrArg (Instr.load4b r) (ofNat_leNat_leBytes 4 imm)
  | load5b r imm => exact congrArg (Instr.load5b r) (ofNat_leNat_leBytes 5 imm)
  | load6b r imm => exact congrArg (Instr.load6b r) (ofNat_leNat_leBytes 6 imm)
  | load7b r imm => exact congrArg (Instr.load7b r) (ofNat_leNat_leBytes 7 imm)
  | load8b r imm => exact congrArg (Instr.load8b r) (ofNat_leNat_leBytes 8 imm)
  | call address => exact congrArg Instr.call (ofNat_leNat_leBytes 8 address)
  | badop op => exact assembleInstr_of_ge (of_decide_eq_true hwf) []
  | nop | ret | endProgram | cpuid => rfl
  | not _ | int _ => rfl
  | and _ _ | or _ _ | xor _ _ => rfl
  | add _ _ _ | sub _ _ _ | mul _ _ _ | div _ _ _ => rfl

/-- Settles O1: the opcode byte cuts off exactly the operand bytes, and its row rebuilds the instruction from them. -/
theorem decodeInvertsEncode : Obligations.DecodeInvertsEncode := by
  intro i rest hwf
  have hlen : operandCount i.opcode = i.operandBytes.length := (operandBytes_length hwf).symm
  rw [encode, List.cons_append, decode_cons_of_le (by simp [hlen]), hlen, List.take_left, List.drop_left,
    assembleInstr_operandBytes hwf]

/-! ### From the bytes to the instruction -/

/-- The rows of R90, grouped by the form of the operands. -/
theorem opcode_forms (op : Byte) :
    (op = 0x00 ∨ op = 0x12 ∨ op = 0x13 ∨ op = 0x14) ∨
    (op = 0x01 ∨ op = 0x02 ∨ op = 0x03 ∨ op = 0x04 ∨ op = 0x05 ∨ op = 0x06 ∨ op = 0x07 ∨ op = 0x08) ∨
    (op = 0x09 ∨ op = 0x0A ∨ op = 0x0B ∨ op = 0x0C) ∨ (op = 0x0D ∨ op = 0x15) ∨
    (op = 0x0E ∨ op = 0x0F ∨ op = 0x10) ∨ op = 0x11 ∨ 22 ≤ op.toNat := by
  revert op; decide

/-- The bytes of an immediate are the bytes it was read from (R54, R88). -/
theorem leBytes_ofNat_leNat {k : Nat} {bs : List Byte} (h : bs.length = k) :
    leBytes k (BitVec.ofNat (8 * k) (leNat bs)).toNat = bs := by
  rw [Machine.toNat_ofNat_leNat h, ← h, leBytes_leNat]

/-- An opcode byte of 22 or more asks for no operand bytes (D2, log entry 8). -/
theorem operandCount_of_ge {op : Byte} (h : 22 ≤ op.toNat) : operandCount op = 0 := by
  have hlen : 1 = opLength op := Laws.EncodeLength.badop op (decide_eq_true h)
  rw [operandCount, ← hlen]

/-- What an opcode byte and as many operand bytes as it asks for assemble to is well-formed, and they are its
encoding. -/
theorem encode_assembleInstr {op : Byte} {bs : List Byte} (hlen : bs.length = operandCount op) :
    (assembleInstr op bs).wellFormed = true ∧ encode (assembleInstr op bs) = op :: bs := by
  rcases opcode_forms op with hnone | hload | hthree | hone | htwo | rfl | hbad
  · have hnil : bs = [] := by
      rcases hnone with rfl | rfl | rfl | rfl <;> exact List.length_eq_zero_iff.mp hlen
    subst hnil
    rcases hnone with rfl | rfl | rfl | rfl <;> exact ⟨rfl, rfl⟩
  · obtain ⟨r, imm, rfl⟩ : ∃ r imm, bs = r :: imm := by
      rcases hload with rfl | rfl | rfl | rfl | rfl | rfl | rfl | rfl <;>
        exact List.exists_cons_of_length_eq_add_one hlen
    rcases hload with rfl | rfl | rfl | rfl | rfl | rfl | rfl | rfl <;>
      exact ⟨rfl, congrArg (fun imm => _ :: r :: imm) (leBytes_ofNat_leNat (Nat.succ.inj hlen))⟩
  · obtain ⟨a, b, d, rfl⟩ : ∃ a b d, bs = [a, b, d] := by
      rcases hthree with rfl | rfl | rfl | rfl <;> exact List.length_eq_three.mp hlen
    rcases hthree with rfl | rfl | rfl | rfl <;> exact ⟨rfl, rfl⟩
  · obtain ⟨b, rfl⟩ : ∃ b, bs = [b] := by
      rcases hone with rfl | rfl <;> exact List.length_eq_one_iff.mp hlen
    rcases hone with rfl | rfl <;> exact ⟨rfl, rfl⟩
  · obtain ⟨d, r, rfl⟩ : ∃ d r, bs = [d, r] := by
      rcases htwo with rfl | rfl | rfl <;> exact List.length_eq_two.mp hlen
    rcases htwo with rfl | rfl | rfl <;> exact ⟨rfl, rfl⟩
  · exact ⟨rfl, congrArg (0x11 :: ·) (leBytes_ofNat_leNat hlen)⟩
  · rw [operandCount_of_ge hbad, List.length_eq_zero_iff] at hlen
    subst hlen
    rw [assembleInstr_of_ge hbad]
    exact ⟨decide_eq_true hbad, rfl⟩

/-- Settles O2. -/
theorem encodeInvertsDecode : Obligations.EncodeInvertsDecode := by
  intro bs i rest h
  obtain ⟨op, tail, rfl, hle, rfl, rfl⟩ := decode_ok h
  obtain ⟨hwf, henc⟩ := encode_assembleInstr (List.length_take_of_le hle)
  exact ⟨hwf, by rw [henc, List.cons_append, List.take_append_drop]⟩

/-- Settles O3: the bytes of what decodes begin with the opcode byte, so it is of that opcode; `badop` of an opcode
byte below 22 would not be well-formed. -/
theorem decodeTotalOverOpcodes : Obligations.DecodeTotalOverOpcodes := by
  intro op tail
  rcases Nat.lt_or_ge tail.length (operandCount op) with hlt | hle
  · exact .inl ⟨hlt, decode_cons_of_lt hlt⟩
  obtain ⟨hwf, henc⟩ := encode_assembleInstr (List.length_take_of_le hle)
  refine .inr ⟨hle, _, decode_cons_of_le hle, (List.cons.inj henc).1, ?_, fun h => assembleInstr_of_ge h _, ?_⟩
  · rintro rfl; rfl
  · intro hlow hbad
    rw [hbad] at hwf
    exact absurd (of_decide_eq_true hwf : 22 ≤ op.toNat) (by omega)

/-- Settles O4: decoding takes the opcode byte and its operand bytes, and the table of R84 gives their number. -/
theorem instructionLengthByOpcode : Obligations.InstructionLengthByOpcode := by
  intro op tail i rest h
  obtain ⟨_, _, heq, hle, _, rfl⟩ := decode_ok h
  cases heq
  have hpos := opLength_pos op
  have hlen : (op :: tail).length = (tail.drop (operandCount op)).length + opLength op := by
    simp only [operandCount, List.length_cons, List.length_drop] at hle ⊢; omega
  have htable : ∀ op : Byte, opLength op =
      if op = 0 then 1 else if op ≤ 8 then 2 + op.toNat else if op ≤ 12 then 4 else if op = 13 then 2
      else if op ≤ 16 then 3 else if op = 17 then 9 else if op ≤ 19 then 1 else if op = 20 then 1
      else if op = 21 then 2 else 1 := by decide
  rw [hlen, htable]

/-- Settles O5: closed words, which the decoder evaluates. -/
theorem sampleWordsDecode : Obligations.SampleWordsDecode := ⟨rfl, rfl, rfl, rfl, rfl, rfl, rfl⟩

/-! ### Assembly lines -/

/-- An immediate of `k` bytes keeps the bytes of a number its width admits (R94). -/
theorem leBytes_ofNat_of_lt {k v : Nat} (h : v < 2 ^ (8 * k)) :
    leBytes k (BitVec.ofNat (8 * k) v).toNat = leBytes k v := by
  rw [BitVec.toNat_ofNat, Nat.mod_eq_of_lt h]

/-- The LOAD that a line of width `k + 1` names is well-formed; its operand bytes are the register byte and those of
the value (R94). -/
theorem encode_loadInstr (k : Fin 8) (r : Byte) (v : Nat) :
    (loadInstr k r v).wellFormed = true ∧ encode (loadInstr k r v) =
      BitVec.ofNat 8 (k.val + 1) :: r :: leBytes (k.val + 1) (BitVec.ofNat (8 * (k.val + 1)) v).toNat := by
  match k with
  | 0 | 1 | 2 | 3 | 4 | 5 | 6 | 7 => exact ⟨rfl, rfl⟩

/-- A line that emits bytes and names an instruction names a well-formed one and emits its encoding (R94). -/
theorem bytes?_eq_encode {l : AsmLine} {bs : List Byte} {i : Instr} (hbytes : l.bytes? = some bs)
    (hinstr : l.instr? = some i) : i.wellFormed = true ∧ bs = encode i := by
  cases l with
  | load k r v =>
    obtain ⟨hv, hbs⟩ := Option.ite_none_right_eq_some.mp hbytes
    cases hbs; cases hinstr
    obtain ⟨hwf, henc⟩ := encode_loadInstr k (regByte r) v
    exact ⟨hwf, by rw [henc, leBytes_ofNat_of_lt hv]⟩
  | call a =>
    obtain ⟨ha, hbs⟩ := Option.ite_none_right_eq_some.mp hbytes
    cases hbs; cases hinstr
    exact ⟨rfl, congrArg (0x11 :: ·) (leBytes_ofNat_of_lt ha).symm⟩
  | int n =>
    obtain ⟨_, hbs⟩ := Option.ite_none_right_eq_some.mp hbytes
    cases hbs; cases hinstr
    exact ⟨rfl, rfl⟩
  | byte v =>
    obtain ⟨hlt, hbs⟩ := Option.ite_none_right_eq_some.mp hbytes
    obtain ⟨hge, hi⟩ := Option.ite_none_right_eq_some.mp hinstr
    cases hbs; cases hi
    have hvalue : (BitVec.ofNat 8 v).toNat = v := (BitVec.toNat_ofNat v 8).trans (Nat.mod_eq_of_lt hlt)
    exact ⟨decide_eq_true (hvalue.symm ▸ hge), rfl⟩
  | nop | ret | endProgram | cpuid => cases hbytes; cases hinstr; exact ⟨rfl, rfl⟩
  | not _ | and _ _ | or _ _ | xor _ _ => cases hbytes; cases hinstr; exact ⟨rfl, rfl⟩
  | add _ _ _ | sub _ _ _ | mul _ _ _ | div _ _ _ => cases hbytes; cases hinstr; exact ⟨rfl, rfl⟩

/-- Settles O6: what a line emits is an encoding, which decoding undoes. -/
theorem assembledLinesDecode : Obligations.AssembledLinesDecode := by
  intro l bs i rest hbytes hinstr
  obtain ⟨hwf, rfl⟩ := bytes?_eq_encode hbytes hinstr
  exact decodeInvertsEncode i rest hwf

end Sys2Proof

/-! What a step and an instruction can do, said once for the statements about the whole machine: a step that has a next
state either ran no handler, and then wrote neither memory nor table, or its state is the one a handler left. -/

namespace Sys2Proof.Machine

/-! ### INT -/

section
variable {s : State} {n : Byte} {h : Handler}

/-- INT with a number that has a handler calls it (R221, R222). -/
theorem exec_int_of_lookupHandler_some (hlookup : s.lookupHandler n = some h) : exec (.int n) s = invoke h n s := by
  have hexec : exec (.int n) s = execInt n s := rfl
  simp only [hexec, execInt, hlookup]

/-- The conduct of a handler the host vouches for is to return (log entry 4). -/
theorem handlerConduct_of_dutiful (hvouched : h.dutiful = true) : handlerConduct h n s = .returns :=
  if_pos hvouched

/-- The conduct of a handler the host does not vouch for is free (log entry 4). -/
theorem handlerConduct_of_not_dutiful (hfree : h.dutiful = false) :
    handlerConduct h n s = Config.handlerConduct h n s.handlerCalls s.borrow :=
  if_neg (by simp [hfree])

/-- A call of a handler answers by the handler's conduct (R222, R224, R226). -/
theorem invoke_of_returns (hconduct : handlerConduct h n s = .returns) :
    invoke h n s = .next ((handlerLeaves h n s).raise .normal) := by
  simp only [invoke, hconduct]

/-- A handler that never returns hangs the step (U19). -/
theorem invoke_of_neverReturns (hconduct : handlerConduct h n s = .neverReturns) :
    invoke h n s = .fault .handlerNeverReturns := by
  simp only [invoke, hconduct]

/-- A handler that calls `step()` has no meaning (U18). -/
theorem invoke_of_callsStep (hconduct : handlerConduct h n s = .callsStep) :
    invoke h n s = .refused .nestedStep := by
  simp only [invoke, hconduct]

variable (s n h)

/-- What a returning handler leaves is written back as it stands, in canonical form (R226). -/
theorem leftByHandler_handlerLeaves :
    LeftByHandler (Config.handlerResult h n s.handlerCalls s.borrow) s ((handlerLeaves h n s).raise .normal) :=
  ⟨bytes_ofBytes _, wf_ofBytes _, rfl, Bool.and_true _, rfl, rfl, rfl, rfl, rfl⟩

/-- A handler leaves a memory in canonical form and within `MEM_MAX` (R20, R53, log entry 16). -/
theorem inv_handlerLeaves : ((handlerLeaves h n s).raise .normal).Inv :=
  ⟨wf_ofBytes _, (ofBytes_length _).le.trans (Config.handlerResult h n s.handlerCalls s.borrow).memFits⟩

end

/-- Settles O33. -/
theorem handledInterruptRunsHandler : Obligations.HandledInterruptRunsHandler := by
  intro s n h hlookup hvouched
  refine ⟨_, ?_, leftByHandler_handlerLeaves s n h⟩
  rw [exec_int_of_lookupHandler_some hlookup, invoke_of_returns (handlerConduct_of_dutiful hvouched)]

/-- Settles O34: without the host's word the three conducts are open, and each has its own outcome. -/
theorem unvouchedHandlerOutcomes : Obligations.UnvouchedHandlerOutcomes := by
  rintro s n h _ hlookup hfree rfl
  rw [← borrow_eq, exec_int_of_lookupHandler_some hlookup]
  have hconduct := handlerConduct_of_not_dutiful (s := s) (n := n) hfree
  split
  case h_1 hc => exact ⟨_, invoke_of_returns (hconduct.trans hc), leftByHandler_handlerLeaves s n h⟩
  case h_2 hc => exact invoke_of_neverReturns (hconduct.trans hc)
  case h_3 hc => exact invoke_of_callsStep (hconduct.trans hc)

/-- What INT leaves when it has a next state: `UnhandledInterrupt` raised, or what a handler left (R221). -/
theorem exec_int_next {n : Byte} {s t : State} (h : exec (.int n) s = .next t) :
    t = s.raise .unhandledInterrupt ∨ ∃ f, t = (handlerLeaves f n s).raise .normal := by
  cases hlookup : s.lookupHandler n with
  | none =>
    rw [exec_int_of_lookupHandler_none hlookup] at h
    exact .inl (Host.Outcome.next.inj h).symm
  | some f =>
    rw [exec_int_of_lookupHandler_some hlookup] at h
    rcases invoke_cases f n s with e | ⟨_, e | e⟩ <;> rw [e] at h
    · exact .inr ⟨f, (Host.Outcome.next.inj h).symm⟩
    · cases h
    · cases h

/-- INT is the only instruction that `isInt` names. -/
theorem eq_int_of_isInt {i : Instr} (h : isInt i = true) : ∃ n, i = .int n := by
  cases i with
  | int n => exact ⟨n, rfl⟩
  | _ => cases h

/-! ### Instructions and steps that run no handler -/

/-- From `s` to `t` no handler ran: memory, table and handler count are as before, and `status` was cleared exactly
when the signal clears it (R59, R271). -/
structure RanNoHandler (s t : State) : Prop where
  mem : t.mem = s.mem
  it : t.it = s.it
  handlerCalls : t.handlerCalls = s.handlerCalls
  status : t.status = (s.status && !t.signal.clearsStatus)

/-- Raising a signal runs no handler. -/
theorem ranNoHandler_raise (s : State) (g : Signal) : RanNoHandler s (s.raise g) := ⟨rfl, rfl, rfl, rfl⟩

/-- An instruction other than INT runs no handler. -/
theorem ranNoHandler_of_exec {i : Instr} {s t : State} (hi : isInt i = false) (h : exec i s = .next t) :
    RanNoHandler s t ∧ t.signal ≠ .notRunning := by
  rcases exec_cases i s hi with ⟨g, hg, e⟩ | ⟨d, hd, v, g, _, hg, e⟩ | ⟨_, w, e⟩ | ⟨_, cs, w, e⟩ <;>
    cases e.symm.trans h
  · exact ⟨ranNoHandler_raise s g, hg⟩
  · exact ⟨⟨rfl, rfl, rfl, rfl⟩, by rcases hg with rfl | rfl <;> exact nofun⟩
  · exact ⟨⟨rfl, rfl, rfl, rfl⟩, nofun⟩
  · exact ⟨⟨rfl, rfl, rfl, rfl⟩, nofun⟩

/-- A step that has a next state ran no handler, or leaves what a handler left, lent the state with `pc` past the INT.
Only a halted core reports `NotRunning`. -/
theorem step_next {s t : State} (h : step s = .next t) :
    (RanNoHandler s t ∧ (s.status = true → t.signal ≠ .notRunning)) ∨
    ∃ f n w, t = (handlerLeaves f n (s.setPc w)).raise .normal := by
  rcases step_cases s with ⟨hhalted, e⟩ | ⟨_, i, w, _, e⟩ | ⟨_, w, _, e⟩
  · cases e.symm.trans h
    exact .inl ⟨⟨rfl, rfl, rfl, by simp [hhalted]⟩, by simp [hhalted]⟩
  · have hexec : exec i (s.setPc w) = .next t := e.symm.trans h
    cases hi : isInt i with
    | false =>
      obtain ⟨⟨hmem, hit, hcalls, hstatus⟩, hsignal⟩ := ranNoHandler_of_exec hi hexec
      exact .inl ⟨⟨hmem, hit, hcalls, hstatus⟩, fun _ => hsignal⟩
    | true =>
      obtain ⟨n, rfl⟩ := eq_int_of_isInt hi
      rcases exec_int_next hexec with rfl | ⟨f, rfl⟩
      · exact .inl ⟨⟨rfl, rfl, rfl, rfl⟩, fun _ => nofun⟩
      · exact .inr ⟨f, n, w, rfl⟩
  · cases e.symm.trans h
    exact .inl ⟨⟨rfl, rfl, rfl, rfl⟩, fun _ => nofun⟩

/-- States with the same memory meet the invariant together. -/
theorem inv_of_mem_eq {s t : State} (hmem : t.mem = s.mem) (h : s.Inv) : t.Inv := by
  rwa [State.Inv, hmem]

/-- States with the same memory read the same. -/
theorem sameMemory_of_mem_eq {s t : State} (hmem : t.mem = s.mem) : SameMemory s t :=
  ⟨congrArg List.length hmem, fun a => congrArg (Memory.read? · a) hmem⟩

/-- States with the same table have the same handlers. -/
theorem lookupHandler_of_it_eq {s t : State} (hit : t.it = s.it) (n : Byte) :
    t.lookupHandler n = s.lookupHandler n := by
  simp only [State.lookupHandler, hit]

/-! ### What every step keeps -/

/-- Settles O35: without a handler a step does not write the memory; a handler leaves a memory that is canonical and
fits. -/
theorem stepKeepsInvariant : Obligations.StepKeepsInvariant := by
  intro s t hinv h
  rcases step_next h with ⟨hquiet, _⟩ | ⟨f, n, w, rfl⟩
  · exact inv_of_mem_eq hquiet.mem hinv
  · exact inv_handlerLeaves (s.setPc w) n f

/-- Settles O36. -/
theorem resetMeetsInvariant : Obligations.ResetMeetsInvariant := by
  refine ⟨⟨rfl, Nat.zero_le _⟩, fun n h hlookup => ?_⟩
  have hempty : State.reset.lookupHandler n = none := by simp [State.lookupHandler, State.reset]
  cases hempty.symm.trans hlookup

/-- A `load` that is not refused fits and appends (R242, R243). -/
theorem load_next {s t : State} {bs : List Byte} (h : s.load bs = .next t) :
    s.mem.length + bs.length ≤ memMax ∧ t = { s with mem := s.mem.append bs } := by
  unfold State.load at h
  split at h
  · next hfit => exact ⟨hfit, (Host.Outcome.next.inj h).symm⟩
  · cases h

/-- Every host operation keeps the invariant (R240). -/
theorem inv_of_applyOp {op : HostOp} {s t : State} (hinv : s.Inv) (h : applyOp op s = .next t) : t.Inv := by
  cases op with
  | load bs =>
    obtain ⟨hfit, rfl⟩ := load_next h
    exact inv_append hinv hfit
  | attachInterrupt n f => cases h; exact hinv
  | start => cases h; exact hinv
  | halt => cases h; exact hinv
  | step => exact stepKeepsInvariant s t hinv h

/-- Host operations run one after the other as long as each has a next state (R251). -/
theorem runOps_cons_of_next {op : HostOp} {s s' : State} (h : applyOp op s = .next s') (ops : List HostOp) :
    runOps (op :: ops) s = runOps ops s' := by
  simp only [runOps, h]

/-- A run of host operations that goes through went through its first one. -/
theorem runOps_cons_next {op : HostOp} {ops : List HostOp} {s t : State} (h : runOps (op :: ops) s = .next t) :
    ∃ s', applyOp op s = .next s' ∧ runOps ops s' = .next t := by
  cases hop : applyOp op s with
  | next s' => exact ⟨s', rfl, (runOps_cons_of_next hop ops).symm.trans h⟩
  | fault f => simp [runOps, hop] at h
  | refused r => simp [runOps, hop] at h

/-- Settles O37, by induction on the operations. -/
theorem hostOperationsKeepInvariant : Obligations.HostOperationsKeepInvariant := by
  intro ops
  induction ops with
  | nil => intro s t hinv h; cases h; exact hinv
  | cons op ops ih =>
    intro s t hinv h
    obtain ⟨s', hop, hrest⟩ := runOps_cons_next h
    exact ih s' t (inv_of_applyOp hinv hop) hrest

/-- An instruction has a next state in every state whose handlers the host vouches for (R280). -/
theorem exec_completes {s : State} (h : s.HandlersDutiful) (i : Instr) : ∃ t, exec i s = .next t := by
  cases hi : isInt i with
  | false =>
    rcases exec_cases i s hi with ⟨_, _, e⟩ | ⟨_, _, _, _, _, _, e⟩ | ⟨_, _, e⟩ | ⟨_, _, _, e⟩ <;> exact ⟨_, e⟩
  | true =>
    obtain ⟨n, rfl⟩ := eq_int_of_isInt hi
    cases hlookup : s.lookupHandler n with
    | none => exact ⟨_, exec_int_of_lookupHandler_none hlookup⟩
    | some f =>
      rw [exec_int_of_lookupHandler_some hlookup]
      exact ⟨_, invoke_of_returns (handlerConduct_of_dutiful (h n f hlookup))⟩

/-- Settles O38: a step runs at most one instruction, and moving `pc` does not touch the table. -/
theorem stepAlwaysCompletes : Obligations.StepAlwaysCompletes := by
  intro s hvouched
  rcases step_cases s with ⟨_, e⟩ | ⟨_, i, w, _, e⟩ | ⟨_, w, _, e⟩
  · exact ⟨_, e⟩
  · rw [e]
    exact exec_completes (s := s.setPc w) hvouched i
  · exact ⟨_, e⟩

/-- Settles O39: without a handler `status` follows the signal; a step that ran one reports `Normal` and was
counted. -/
theorem waysARunEnds : Obligations.WaysARunEnds := by
  intro s t hrun h
  rcases step_next h with ⟨hquiet, hsignal⟩ | ⟨f, n, w, rfl⟩
  · have hstatus : t.status = !t.signal.clearsStatus := by rw [hquiet.status, hrun, Bool.true_and]
    rw [hstatus]
    refine ⟨?_, ?_, ?_, hsignal hrun⟩
    · have hclears : ∀ g ∈ [Signal.normalTermination, .programExhausted, .registerFault, .divisionFault,
          .callStackUnderflow, .unhandledInterrupt], (!g.clearsStatus) = false := by decide
      exact hclears _
    · have hkeeps : ∀ g ∈ [Signal.overflowed, .badOpcode], (!g.clearsStatus) = true := by decide
      exact hkeeps _
    · intro hnormal _; rw [hnormal]; rfl
  · exact ⟨nofun, nofun, fun _ hcalls => absurd hcalls (Nat.succ_ne_self s.handlerCalls), nofun⟩

/-- Settles O8. -/
theorem haltedStepChangesNothing : Obligations.HaltedStepChangesNothing := by
  intro s hhalted
  simp [step, hhalted, stepHalted_eq]

/-- Settles O40: of the five operations only `start` sets `status`, and a halted step does nothing. -/
theorem onlyStartSetsRunning : Obligations.OnlyStartSetsRunning := by
  intro op s t hhalted h
  cases op with
  | load bs =>
    obtain ⟨_, rfl⟩ := load_next h
    simp [hhalted]
  | attachInterrupt n f => cases h; simp [State.attachInterrupt, hhalted]
  | start => cases h; simp
  | halt => cases h; simp [State.halt]
  | step =>
    cases (haltedStepChangesNothing s hhalted).symm.trans h
    simp [hhalted]

/-! ### What an instruction leaves alone -/

/-- A register other than the one the instruction names as its destination is another register. -/
theorem ne_of_writtenReg_ne {i : Instr} {d : Byte} (hd : d.toNat < 16) {r : Fin 16} (hwritten : writtenReg? i = some d)
    (hr : writtenReg? i ≠ some (regByte r)) : r ≠ ⟨d.toNat, hd⟩ := by
  rintro rfl
  exact hr (hwritten.trans (by simp [regByte]))

/-- Settles O41: whatever the form of its next state, an instruction other than INT writes at most its destination
register, and only CALL and RET write `pc` and the call stack. -/
theorem everyInstructionFrame : Obligations.EveryInstructionFrame := by
  intro i s t hi h
  obtain ⟨hquiet, _⟩ := ranNoHandler_of_exec hi h
  refine ⟨sameMemory_of_mem_eq hquiet.mem, lookupHandler_of_it_eq hquiet.it, hquiet.handlerCalls, ?_⟩
  rcases exec_cases i s hi with ⟨g, _, e⟩ | ⟨d, hd, v, g, hwritten, _, e⟩ | ⟨hjump, w, e⟩ | ⟨hjump, cs, w, e⟩ <;>
    cases e.symm.trans h
  · exact ⟨fun _ _ => rfl, fun _ => ⟨rfl, rfl⟩⟩
  · exact ⟨fun r hr => readReg_writeReg_ne s v (ne_of_writtenReg_ne hd hwritten hr), fun _ => ⟨rfl, rfl⟩⟩
  · exact ⟨fun _ _ => rfl, fun hno => absurd hjump (by simp [hno])⟩
  · exact ⟨fun _ _ => rfl, fun hno => absurd hjump (by simp [hno])⟩

/-- Settles O42: a step that ran a handler counted it. -/
theorem stepWritesNoMemory : Obligations.StepWritesNoMemory := by
  intro s t h hcalls
  rcases step_next h with ⟨hquiet, _⟩ | ⟨f, n, w, rfl⟩
  · exact ⟨sameMemory_of_mem_eq hquiet.mem, lookupHandler_of_it_eq hquiet.it⟩
  · exact absurd hcalls (Nat.succ_ne_self s.handlerCalls)

/-- Raising a fatal fault changes `status` and the signal only (R271). -/
theorem raise_of_isFatal {g : Signal} (h : g.isFatal = true) (s : State) :
    s.raise g = { s with status := false, signal := g } :=
  raise_of_clears (by simp [Signal.clearsStatus, h]) s

/-- Settles O43: an instruction that wrote anything reports `Normal` or `Overflowed`, which are not fatal. -/
theorem fatalFaultsChangeOnlyStatus : Obligations.FatalFaultsChangeOnlyStatus := by
  intro i s t h hfatal
  cases hi : isInt i with
  | false =>
    rcases exec_cases i s hi with ⟨g, _, e⟩ | ⟨d, hd, v, g, _, hg, e⟩ | ⟨_, w, e⟩ | ⟨_, cs, w, e⟩ <;>
      cases e.symm.trans h
    · exact raise_of_isFatal hfatal s
    · rcases hg with rfl | rfl <;> cases hfatal
    · cases hfatal
    · cases hfatal
  | true =>
    obtain ⟨n, rfl⟩ := eq_int_of_isInt hi
    rcases exec_int_next h with rfl | ⟨f, rfl⟩
    · exact raise_of_isFatal hfatal s
    · cases hfatal

end Sys2Proof.Machine

/-! Statements of 40_step_and_nop.md, 10_state.md section 3, 47_host_interface.md and 70_reset_and_hazards.md: what the
fetch finds in the memory from `pc` on, and the runs of a host that lead to an instruction. -/

namespace Sys2Proof.Machine

/-! ### What lies in a memory -/

/-- What lies at an offset begins there with its own beginning. -/
theorem holds_of_holds_append {m : Memory} {a : Nat} {bs cs : List Byte} (h : m.Holds a (bs ++ cs)) :
    m.Holds a bs := by
  intro j hj
  rw [h j (by rw [List.length_append]; omega), List.getElem?_append_left hj]

/-- A canonical memory holds at any offset its bytes from there on. -/
theorem holds_drop_bytes {m : Memory} (hwf : m.wf = true) (a : Nat) : m.Holds a (m.bytes.drop a) := by
  intro j _
  rw [read?_of_wf hwf, List.getElem?_drop]

/-- Moving `pc` over `n` bytes adds `n` to its number when there is room. -/
theorem toNat_add_ofNat {w : Word} {n : Nat} (h : w.toNat + n < 2 ^ 64) :
    (w + BitVec.ofNat 64 n).toNat = w.toNat + n := by
  rw [BitVec.toNat_add, BitVec.toNat_ofNat, Nat.add_mod_mod, Nat.mod_eq_of_lt h]

/-! ### A whole instruction at `pc` -/

/-- The encoding of a well-formed instruction is fetched as that instruction, with `pc` just past it (R113, R116). -/
theorem fetchInstr_of_holds_encode {s : State} {i : Instr} (hwf : i.wellFormed = true)
    (hpc : s.pc.toNat + (encode i).length < 2 ^ 64) (h : s.mem.Holds s.pc.toNat (encode i)) :
    fetchInstr s = .instr i (s.setPc (s.pc + BitVec.ofNat 64 (encode i).length)) := by
  have hfetch := fetchInstr_of_whole (operandBytes_length hwf) hpc h
  rwa [assembleInstr_operandBytes hwf] at hfetch

/-- A running core with the encoding of a well-formed instruction at `pc` executes it (R110, R116). -/
theorem step_of_holds_encode {s : State} {i : Instr} (hrun : s.status = true) (hwf : i.wellFormed = true)
    (hpc : s.pc.toNat + (encode i).length < 2 ^ 64) (h : s.mem.Holds s.pc.toNat (encode i)) :
    step s = exec i { s with pc := s.pc + BitVec.ofNat 64 (encode i).length } := by
  simp [step, hrun, fetchInstr_of_holds_encode hwf hpc h, State.setPc]

/-- Settles O7: what decodes is an encoding and a rest, and the rest does not enter the step. -/
theorem stepRunsDecodedInstruction : Obligations.StepRunsDecodedInstruction := by
  intro s bs i rest hrun hdecode hholds hpc
  obtain ⟨hwf, rfl⟩ := encodeInvertsDecode bs i rest hdecode
  rw [List.length_append] at hpc
  exact ⟨hwf, step_of_holds_encode hrun hwf (by omega) (holds_of_holds_append hholds)⟩

/-! ### Whole or cut -/

/-- With an opcode byte at `pc`, the bytes of the memory from `pc` on are that byte and a tail, which decides between
the two outcomes of a fetch: the operand bytes are there, and `pc` ends just past the instruction; or the memory ends
first, and `pc` ends at its end (R113, R114). -/
theorem fetchInstr_of_opcode {s : State} {op : Byte} (hinv : s.Inv) (hop : s.mem.read? s.pc.toNat = some op) :
    (s.pc.toNat + opLength op ≤ s.mem.length ∧
      ∃ i, fetchInstr s = .instr i (s.setPc (s.pc + BitVec.ofNat 64 (opLength op)))) ∨
    (s.mem.length < s.pc.toNat + opLength op ∧
      fetchInstr s = .exhausted (s.setPc (BitVec.ofNat 64 s.mem.length))) := by
  obtain ⟨hwf, hmax⟩ := hinv
  obtain ⟨hlt, hbyte⟩ := List.getElem?_eq_some_iff.mp ((read?_of_wf hwf _).symm.trans hop)
  obtain ⟨tail, htail⟩ : ∃ tail, s.mem.bytes.drop s.pc.toNat = op :: tail :=
    ⟨_, by rw [List.drop_eq_getElem_cons hlt, hbyte]⟩
  have hholds : s.mem.Holds s.pc.toNat (op :: tail) := htail ▸ holds_drop_bytes hwf _
  have hlen : s.pc.toNat + (tail.length + 1) = s.mem.length := by
    have := congrArg List.length htail
    rw [bytes_length] at hlt
    simp only [List.length_drop, bytes_length, List.length_cons] at this
    omega
  have hcount : opLength op = operandCount op + 1 := (Nat.sub_add_cancel (opLength_pos op)).symm
  have hroom : s.pc.toNat + (tail.length + 1) < 2 ^ 64 := by rw [memMax] at hmax; omega
  rcases Nat.lt_or_ge tail.length (operandCount op) with hcut | hwhole
  · refine .inr ⟨by omega, ?_⟩
    have hend : s.pc + BitVec.ofNat 64 (tail.length + 1) = BitVec.ofNat 64 s.mem.length := by
      rw [← hlen, BitVec.ofNat_add s.pc.toNat, BitVec.ofNat_toNat, BitVec.setWidth_eq]
    rw [fetchInstr_of_cut hwf hcut hroom hholds hlen.symm, hend]
  · refine .inl ⟨by omega, assembleInstr op (tail.take (operandCount op)), ?_⟩
    have htake : (tail.take (operandCount op)).length = operandCount op := List.length_take_of_le hwhole
    have hfront : s.mem.Holds s.pc.toNat (op :: tail.take (operandCount op)) :=
      holds_of_holds_append (cs := tail.drop (operandCount op)) (by simpa using hholds)
    rw [fetchInstr_of_whole htake (by omega) hfront, htake, hcount]

/-- Settles O10. -/
theorem truncatedInstructionExhausts : Obligations.TruncatedInstructionExhausts := by
  intro s op hinv hrun hop hshort
  rcases fetchInstr_of_opcode hinv hop with ⟨hlong, _⟩ | ⟨_, hfetch⟩
  · omega
  · exact step_of_exhausted hrun hfetch

/-- Settles O11: there is no byte at `pc`, or a whole instruction that ends inside the memory, or the fetch stops at
its end; and the end of the memory is below `2^64`. -/
theorem fetchStaysInsideMemory : Obligations.FetchStaysInsideMemory := by
  intro s hinv hpc
  have hmax : s.mem.length < 2 ^ 64 := Nat.lt_of_le_of_lt hinv.2 (by decide)
  cases hop : s.mem.read? s.pc.toNat with
  | none => exact ⟨s.pc, .inl (fetchInstr_of_read?_none hop), le_rfl, hpc⟩
  | some op =>
    rcases fetchInstr_of_opcode hinv hop with ⟨hfits, i, hfetch⟩ | ⟨_, hfetch⟩
    · refine ⟨_, .inr ⟨i, hfetch⟩, ?_⟩
      rw [toNat_add_ofNat (by omega)]
      omega
    · refine ⟨_, .inl hfetch, ?_⟩
      rw [BitVec.toNat_ofNat, Nat.mod_eq_of_lt hmax]
      exact ⟨hpc, le_rfl⟩

/-! ### NOP, CPUID and the invalid opcodes -/

/-- Settles O12: `Normal` is a signal that keeps `status`, and NOP does nothing but raise it. -/
theorem nopOnlyAdvances : Obligations.NopOnlyAdvances :=
  ⟨fetchesAs_assembleInstr (op := 0x00) (tail := []) rfl,
    fun s => congrArg Host.Outcome.next (raise_of_keeps rfl s)⟩

/-- Settles O13: so does CPUID with `BadOpcode`. -/
theorem cpuidActsAsBadOpcode : Obligations.CpuidActsAsBadOpcode :=
  ⟨fetchesAs_assembleInstr (op := 0x14) (tail := []) rfl,
    fun s => congrArg Host.Outcome.next (raise_of_keeps rfl s)⟩

/-- Settles O14: the default row of the decoder asks for no operand byte and gives `badop`. -/
theorem invalidOpcodeIsSkipped : Obligations.InvalidOpcodeIsSkipped := by
  intro op hop
  refine ⟨?_, fun s => congrArg Host.Outcome.next (raise_of_keeps rfl s)⟩
  have hfetch := fetchesAs_assembleInstr (tail := []) (operandCount_of_ge hop).symm
  rwa [assembleInstr_of_ge hop] at hfetch

/-! ### Reset and the host interface -/

/-- Settles O44: the fields as construction writes them; each register and each table entry is one of a vector of
equal entries. -/
theorem resetIsEmptyAndHalted : Obligations.ResetIsEmptyAndHalted :=
  ⟨rfl, rfl, rfl, fun i => Vector.getElem_replicate i.isLt, rfl, fun n => Vector.getElem_replicate n.isLt⟩

/-- Settles O46. -/
theorem loadBeyondCapacityRefused : Obligations.LoadBeyondCapacityRefused :=
  fun _ _ hbig => if_neg (Nat.not_le.mpr hbig)

/-- A run of one operation is that operation (R251). -/
theorem runOps_singleton (op : HostOp) (s : State) : runOps [op] s = applyOp op s := by
  simp only [runOps]
  cases applyOp op s <;> rfl

/-- A `load` that fits, `start` and `step` are a step of the core with the bytes appended and running (R242, R246). -/
theorem runOps_load_start_step {s : State} {bs : List Byte} (hfit : s.mem.length + bs.length ≤ memMax) :
    runOps [.load bs, .start, .step] s = step { s with mem := s.mem.append bs, status := true } := by
  rw [runOps_cons_of_next (op := .load bs) (load_of_fits hfit), runOps_cons_of_next (op := .start) rfl,
    runOps_singleton]
  rfl

/-- A core whose `pc` is at the end of its memory executes the instruction loaded there (R242, R246, R313). -/
theorem runOps_load_start_step_of_decode {s : State} {bs rest : List Byte} {i : Instr} (hinv : s.Inv)
    (hpc : s.pc.toNat = s.mem.length) (hfit : s.mem.length + bs.length ≤ memMax) (hdecode : decode bs = .ok (i, rest)) :
    runOps [.load bs, .start, .step] s =
      exec i { s with
        mem := s.mem.append bs, status := true, pc := s.pc + BitVec.ofNat 64 (encode i).length } := by
  have hholds : (s.mem.append bs).Holds s.pc.toNat bs := hpc ▸ holds_append hinv.1 bs
  have hroom : s.pc.toNat + bs.length < 2 ^ 64 := by rw [memMax] at hfit; omega
  rw [runOps_load_start_step hfit]
  exact (stepRunsDecodedInstruction { s with mem := s.mem.append bs, status := true } bs i rest rfl hdecode hholds
    hroom).2

/-- An encoding fits into an empty memory: it is at most 10 bytes long (R84). -/
theorem encode_length_le_memMax {i : Instr} (hwf : i.wellFormed = true) : (encode i).length ≤ memMax :=
  (encode_length hwf).le.trans ((opLength_le i.opcode).trans (by decide))

/-- Settles O50: a new core is at the end of its empty memory. -/
theorem bootRunsFirstInstruction : Obligations.BootRunsFirstInstruction := by
  intro i hwf
  have hdecode : decode (encode i) = .ok (i, []) := by simpa using decodeInvertsEncode i [] hwf
  have hfit : State.reset.mem.length + (encode i).length ≤ memMax := by
    simpa [State.reset] using encode_length_le_memMax hwf
  rw [runOps_load_start_step_of_decode resetMeetsInvariant.1 rfl hfit hdecode]
  simp [State.reset, Memory.append, Memory.ofBytes]

/-- Settles O51: the step at the end of the memory halts the core and moves nothing, so the bytes loaded next lie at
`pc`. -/
theorem resumeAfterRunningOff : Obligations.ResumeAfterRunningOff := by
  intro s bs i rest hinv hrun hpc hfit hdecode
  have hend : applyOp .step s = .next { s with status := false, signal := .programExhausted } :=
    endOfProgramAtOpcodeFetch s hinv hrun hpc.ge
  rw [runOps_cons_of_next hend, hrun]
  exact runOps_load_start_step_of_decode (s := { s with status := false, signal := .programExhausted }) hinv hpc hfit
    hdecode

/-! ### The signals -/

/-- The ten signals in the order of R270. -/
def signalTable : List Signal :=
  [.normal, .normalTermination, .programExhausted, .overflowed, .badOpcode, .registerFault, .divisionFault,
    .callStackUnderflow, .unhandledInterrupt, .notRunning]

/-- The code of a signal is its place in the table (R270). -/
theorem signalTable_getElem?_code (g : Signal) : signalTable[g.code]? = some g := by cases g <;> rfl

/-- Settles O52: signals at the same place of the table are the same. -/
theorem signalCodesAreTheTable : Obligations.SignalCodesAreTheTable := by
  refine ⟨rfl, fun g h hcode => Option.some.inj ?_⟩
  rw [← signalTable_getElem?_code g, hcode, signalTable_getElem?_code]

end Sys2Proof.Machine

/-! The statements of 42_arithmetic.md on the value written: ADD, SUB, MUL and DIV hand an exact result to one end,
which writes it modulo 2^64 (R150, R152); and the idioms the spec derives for coinciding operands (R151, R175). -/

namespace Sys2Proof.Machine

/-! ### The end of an arithmetic instruction -/

/-- Wrapping keeps an exact result that fits (R9). -/
theorem toInt_wrap64_of_fits {z : Int} (h : -2 ^ 63 ≤ z ∧ z < 2 ^ 63) : (wrap64 z).toInt = z :=
  BitVec.toInt_ofInt_eq_self (by decide) h.1 h.2

/-- Wrapping an exact result changes it by a multiple of 2^64 (R9). -/
theorem dvd_toInt_wrap64_sub (z : Int) : (2 ^ 64 : Int) ∣ (wrap64 z).toInt - z := by
  rw [wrap64, BitVec.toInt_ofInt]
  exact_mod_cast Int.dvd_bmod_sub_self (x := z) (m := 2 ^ 64)

/-- An exact result that fits is reported as `Normal` (R152). -/
theorem arithSignal_of_fits {z : Int} (h : -2 ^ 63 ≤ z ∧ z < 2 ^ 63) : arithSignal z = .normal := by
  rcases arithSignal_cases z with ⟨_, _, e⟩ | ⟨hout, _⟩
  · exact e
  · simp only [int64Min, int64Max] at hout; omega

/-- An exact result that does not fit is reported as `Overflowed` (R152, D27). -/
theorem arithSignal_of_not_fits {z : Int} (h : ¬(-2 ^ 63 ≤ z ∧ z < 2 ^ 63)) : arithSignal z = .overflowed := by
  rcases arithSignal_cases z with ⟨hmin, hmax, _⟩ | ⟨_, e⟩
  · simp only [int64Min, int64Max] at hmin hmax; omega
  · exact e

/-- The value of a register, read signed, fits (R9). -/
theorem toInt_fits (w : Word) : -2 ^ 63 ≤ w.toInt ∧ w.toInt < 2 ^ 63 :=
  ⟨BitVec.le_toInt w, BitVec.toInt_lt⟩

/-- What the end of an arithmetic instruction writes and reports for the exact result `z` (R150, R152). -/
theorem finishArith_spec (d : Fin 16) (z : Int) (s : State) :
    ∃ t, finishArith d z s = .next t ∧ t.readReg d = wrap64 z ∧ t.signal = arithSignal z ∧ WritesOnlyReg d s t :=
  ⟨_, rfl, readReg_writeReg_self s d (wrap64 z), rfl, writesOnlyReg_writeReg_raise d _ (arithSignal_keeps z) s⟩

/-! ### ADD, SUB and MUL -/

/-- ADD, SUB and MUL with operand bytes that name registers (R150). -/
theorem arith_of_lt (op : Int → Int → Int) {a b d : Byte} (ha : a.toNat < 16) (hb : b.toNat < 16) (hd : d.toNat < 16)
    (s : State) : arith op a b d s =
      finishArith ⟨d.toNat, hd⟩ (op (s.readReg ⟨a.toNat, ha⟩).toInt (s.readReg ⟨b.toNat, hb⟩).toInt) s :=
  withReg3_of_lt ha hb hd s _

/-- An instruction of three register bytes that runs `arith op` wraps the exact result `op` gives. -/
theorem wrapsExactResult_of_exec {opcode : Byte} {mk : Byte → Byte → Byte → Instr} {op : Int → Int → Int}
    (hcount : operandCount opcode = 3) (hasm : ∀ a b d, assembleInstr opcode [a, b, d] = mk a b d)
    (hexec : ∀ a b d s, exec (mk a b d) s = arith op a b d s) : WrapsExactResult opcode mk op := by
  refine ⟨fun a b d => ?fetch, fun s a b d ha hb hd z hz => ?write, fun s a b d h => ?fault⟩
  case fetch => exact hasm a b d ▸ fetchesAs_assembleInstr (tail := [a, b, d]) hcount.symm
  case write =>
    obtain ⟨t, hfinish, hvalue, hsignal, hframe⟩ := finishArith_spec ⟨d.toNat, hd⟩ z s
    refine ⟨t, ?_, ?_, hframe⟩
    · rw [hexec, arith_of_lt op ha hb hd, ← hz, hfinish]
    · rw [hvalue, hsignal]
      split
      case isTrue hfits => exact ⟨toInt_wrap64_of_fits hfits, arithSignal_of_fits hfits⟩
      case isFalse hout => exact ⟨dvd_toInt_wrap64_sub z, arithSignal_of_not_fits hout⟩
  case fault => exact (hexec a b d s).trans (arith_of_ge s op h)

/-- Settles O17. -/
theorem addWrapsExactSum : Obligations.AddWrapsExactSum :=
  wrapsExactResult_of_exec rfl (fun _ _ _ => rfl) fun _ _ _ _ => rfl

/-- Settles O18. -/
theorem subWrapsExactDifference : Obligations.SubWrapsExactDifference :=
  wrapsExactResult_of_exec rfl (fun _ _ _ => rfl) fun _ _ _ _ => rfl

/-- Settles O19. -/
theorem mulWrapsExactProduct : Obligations.MulWrapsExactProduct :=
  wrapsExactResult_of_exec rfl (fun _ _ _ => rfl) fun _ _ _ _ => rfl

/-! ### DIV -/

/-- The remainder that goes with rounding toward zero: smaller in size than the divisor, and 0 or of the sign of the
dividend (R16, R157). -/
theorem tdiv_remainder (x : Int) {y : Int} (hy : y ≠ 0) :
    ∃ r, x = tdiv x y * y + r ∧ r.natAbs < y.natAbs ∧ (r = 0 ∨ (0 < r ∧ 0 < x) ∨ (r < 0 ∧ x < 0)) := by
  refine ⟨x.tmod y, ?_, ?_, ?_⟩
  · rw [tdiv, Int.mul_comm, Int.mul_tdiv_add_tmod]
  · rw [Int.natAbs_tmod]
    exact Nat.mod_lt _ (Int.natAbs_pos.mpr hy)
  · have hsign := Int.sign_tmod x y
    split at hsign
    · exact .inl (Int.sign_eq_zero_iff_zero.mp hsign)
    · rcases lt_trichotomy x 0 with hneg | rfl | hpos
      · exact .inr (.inr ⟨Int.sign_eq_neg_one_iff_neg.mp (hsign.trans (Int.sign_eq_neg_one_of_neg hneg)), hneg⟩)
      · exact .inl (Int.zero_tmod y)
      · exact .inr (.inl ⟨Int.sign_eq_one_iff_pos.mp (hsign.trans (Int.sign_eq_one_of_pos hpos)), hpos⟩)

/-- The quotient of two values that fit fits, but for the least value by -1 (D6): it is no larger in size than the
dividend, so only -2^63 could give 2^63, and by a divisor other than -1 that would leave a positive remainder. -/
theorem tdiv_fits {x y : Int} (hx : -2 ^ 63 ≤ x ∧ x < 2 ^ 63) (hy : y ≠ 0) (h : ¬(x = -2 ^ 63 ∧ y = -1)) :
    -2 ^ 63 ≤ tdiv x y ∧ tdiv x y < 2 ^ 63 := by
  have hsize : (tdiv x y).natAbs ≤ x.natAbs := Int.natAbs_tdiv_le_natAbs x y
  by_contra hout
  have hquot : tdiv x y = 2 ^ 63 := by omega
  have hmin : x = -2 ^ 63 := by omega
  obtain ⟨r, hexact, _, hsign⟩ := tdiv_remainder x hy
  rw [hquot] at hexact
  omega

/-- DIV with operand bytes that name registers and a divisor other than 0 (R156). -/
theorem exec_div_of_ne_zero {a b d : Byte} (ha : a.toNat < 16) (hb : b.toNat < 16) (hd : d.toNat < 16) {s : State}
    (hy : (s.readReg ⟨b.toNat, hb⟩).toInt ≠ 0) : exec (.div a b d) s =
      finishArith ⟨d.toNat, hd⟩ (tdiv (s.readReg ⟨a.toNat, ha⟩).toInt (s.readReg ⟨b.toNat, hb⟩).toInt) s := by
  have hquot : ∀ x, exactQuotient x (s64 (s.readReg ⟨b.toNat, hb⟩)) = some (tdiv x _) := fun x => if_neg hy
  rw [endsByExactResult_div s a b d ha hb hd, hquot]
  rfl

/-- Settles O20: the quotient is written as it is unless it is 2^63, which wraps to -2^63. -/
theorem divRoundsTowardZero : Obligations.DivRoundsTowardZero := by
  refine ⟨fun a b d => ?fetch, fun s a b d ha hb hd x y hx hy hne => ?write, fun s a b d h => ?fault⟩
  case fetch => exact fetchesAs_assembleInstr (op := 0x0C) (tail := [a, b, d]) rfl
  case write =>
    obtain ⟨t, hfinish, hvalue, hsignal, hframe⟩ := finishArith_spec ⟨d.toNat, hd⟩ (tdiv x y) s
    refine ⟨t, ?_, ?_, hframe⟩
    · rw [exec_div_of_ne_zero ha hb hd (hy ▸ hne), ← hx, ← hy, hfinish]
    · rw [hvalue, hsignal]
      split
      case isTrue hmin =>
        obtain ⟨rfl, rfl⟩ := hmin
        exact ⟨by decide, by decide⟩
      case isFalse hnot =>
        have hfits : -2 ^ 63 ≤ tdiv x y ∧ tdiv x y < 2 ^ 63 := tdiv_fits (hx ▸ toInt_fits _) hne hnot
        rw [toInt_wrap64_of_fits hfits]
        exact ⟨arithSignal_of_fits hfits, tdiv_remainder x hne⟩
  case fault => exact execDiv_of_ge s h

/-! ### Coinciding operands -/

section
variable {d r : Byte} (hd : d.toNat < 16) (hr : r.toNat < 16) (s : State)

/-- XOR of a register with itself clears it (R175). -/
theorem exec_xor_self : exec (.xor d d) s = .next ((s.writeReg ⟨d.toNat, hd⟩ 0).raise .normal) := by
  have hexec : exec (.xor d d) s = bitwise (fun x y => x ^^^ y) d d s := rfl
  rw [hexec, bitwise_of_lt _ hd hd, BitVec.xor_self]
  rfl

/-- AND of a register with itself writes back its value (R175). -/
theorem exec_and_self :
    exec (.and d d) s = .next ((s.writeReg ⟨d.toNat, hd⟩ (s.readReg ⟨d.toNat, hd⟩)).raise .normal) := by
  have hexec : exec (.and d d) s = bitwise (fun x y => x &&& y) d d s := rfl
  rw [hexec, bitwise_of_lt _ hd hd, BitVec.and_self]

/-- OR into a register that holds 0 copies the other (R175). -/
theorem exec_or_of_zero (hzero : s.readReg ⟨d.toNat, hd⟩ = 0) :
    exec (.or d r) s = .next ((s.writeReg ⟨d.toNat, hd⟩ (s.readReg ⟨r.toNat, hr⟩)).raise .normal) := by
  have hexec : exec (.or d r) s = bitwise (fun x y => x ||| y) d r s := rfl
  rw [hexec, bitwise_of_lt _ hd hr, hzero]
  simp

include hr in
/-- SUB of a register from itself clears the destination, and 0 fits (R151). -/
theorem exec_sub_self : exec (.sub r r d) s = .next ((s.writeReg ⟨d.toNat, hd⟩ 0).raise .normal) := by
  have hexec : exec (.sub r r d) s = arith (fun x y => x - y) r r d s := rfl
  rw [hexec, arith_of_lt _ hr hr hd, Int.sub_self]
  rfl

/-- SUB from a register that holds 0 negates the other (R151). -/
theorem exec_sub_of_zero (hzero : s.readReg ⟨d.toNat, hd⟩ = 0) :
    exec (.sub d r d) s = .next ((s.writeReg ⟨d.toNat, hd⟩ (-s.readReg ⟨r.toNat, hr⟩)).raise
      (arithSignal (-(s.readReg ⟨r.toNat, hr⟩).toInt))) := by
  have hexec : exec (.sub d r d) s = arith (fun x y => x - y) d r d s := rfl
  have hwrap : wrap64 (-(s.readReg ⟨r.toNat, hr⟩).toInt) = -s.readReg ⟨r.toNat, hr⟩ := by
    rw [wrap64, BitVec.ofInt_neg, BitVec.ofInt_toInt]
  have hminuend : (s.readReg ⟨d.toNat, hd⟩).toInt = 0 := congrArg BitVec.toInt hzero
  rw [hexec, arith_of_lt _ hd hr hd, hminuend, Int.zero_sub, finishArith, hwrap]

end

/-- Of the values of a register only the least has a negation that does not fit (R152). -/
theorem arithSignal_neg_toInt_iff (w : Word) : arithSignal (-w.toInt) = .overflowed ↔ w.toInt = -2 ^ 63 := by
  have hfits := toInt_fits w
  constructor
  · intro hover
    by_contra hne
    cases (arithSignal_of_fits (z := -w.toInt) (by omega)).symm.trans hover
  · intro hmin
    exact arithSignal_of_not_fits (by omega)

/-- Settles O27: the two-step idioms clear `d` first, which leaves `r` as it was when the two differ. -/
theorem registerIdioms : Obligations.RegisterIdioms := by
  intro s d r hd hr
  have hcleared : ((s.writeReg ⟨d.toNat, hd⟩ 0).raise .normal).readReg ⟨d.toNat, hd⟩ = 0 :=
    readReg_writeReg_self s _ 0
  have hkept (v : Word) (hne : d ≠ r) (t : State) :
      (t.writeReg ⟨d.toNat, hd⟩ v).readReg ⟨r.toNat, hr⟩ = t.readReg ⟨r.toNat, hr⟩ :=
    readReg_writeReg_ne t v fun e => hne (BitVec.eq_of_toNat_eq (Fin.val_eq_of_eq e).symm)
  refine ⟨?xor, ?sub, ?and, ?not, fun hne => ?copy, fun hne => ?negate⟩
  case xor => exact ⟨_, exec_xor_self hd s, hcleared⟩
  case sub => exact ⟨_, exec_sub_self hd hr s, hcleared, rfl⟩
  case and => exact ⟨_, exec_and_self hd s, readReg_writeReg_self s _ _⟩
  case not =>
    refine ⟨_, _, execNot_of_lt hd s, execNot_of_lt hd _, ?_⟩
    simp only [readReg_raise, readReg_writeReg_self, BitVec.not_not]
  case copy =>
    refine ⟨_, _, exec_xor_self hd s, exec_or_of_zero hd hr _ hcleared, ?_, ?_⟩
    · simp only [readReg_raise, readReg_writeReg_self, hkept _ hne]
    · simp only [readReg_raise, hkept _ hne]
  case negate =>
    refine ⟨_, _, exec_xor_self hd s, exec_sub_of_zero hd hr _ hcleared, ?_, ?_⟩
    · simp only [readReg_raise, readReg_writeReg_self, hkept _ hne]
    · simp only [raise_signal, readReg_raise, hkept _ hne, arithSignal_neg_toInt_iff]

end Sys2Proof.Machine
